-- ==== Sys2Proof/Word.lean ====
section
/-! DEFINITION. The word types of the TEC block: what the spec treats as bits (00_scope.md R11). -/

namespace Sys2Proof

/-- One cell of a byte buffer, a received byte, a register number (10_state.md R27, R28). -/
abbrev Byte := BitVec 8

/-- The 16-bit width of a sample, a distance, the immediate and the result (`SW` = 16, 00_scope.md R10, R14). -/
abbrev Word := BitVec 16

/-- A command word CW32 (30_encoding.md R80). -/
abbrev CommandWord := BitVec 32

/-- The channel operand `sel[1:0]` (30_encoding.md R83). -/
abbrev ChannelNo := BitVec 2

end Sys2Proof
end

