-- ==== Sys2Proof/Syntax.lean ====
section
/-! DEFINITION. The 18 operations of the block, one constructor per row of spec/opcode_table.json (30_encoding.md R82),
with the operands of R83. Every operand's width is its type's. -/

namespace Sys2Proof

/-- The operations (00_scope.md R3; 30_encoding.md R82, R83). -/
inductive Instr where
  /-- RESET, `40_system.md` R100. -/
  | reset
  /-- RD, `40_system.md` R101; `reg` = `sel[7:0]`. -/
  | rd (reg : Byte)
  /-- TICK, `41_capture.md` R110. -/
  | tick
  /-- TRIGGER, `41_capture.md` R111. -/
  | trigger
  /-- EDGE, `41_capture.md` R112. -/
  | edge
  /-- DIST, `42_filter.md` R130. -/
  | dist
  /-- PUSH, `42_filter.md` R131; `ch` = `sel[1:0]`, `sample` = `imm`. -/
  | push (ch : ChannelNo) (sample : Word)
  /-- PUSHD, `42_filter.md` R132; `ch` = `sel[1:0]`. -/
  | pushd (ch : ChannelNo)
  /-- LEVEL, `43_alarm.md` R150; `distance` = `imm`. -/
  | level (distance : Word)
  /-- LEVELF, `43_alarm.md` R152; `ch` = `sel[1:0]`. -/
  | levelf (ch : ChannelNo)
  /-- PRESET_NEXT, `43_alarm.md` R153. -/
  | presetNext
  /-- ENC, `44_frame_codec.md` R165; `m` = `sel[7]`, `value` = `imm`. -/
  | enc (m : Bool) (value : Word)
  /-- ENCF, `44_frame_codec.md` R167; `m` = `sel[7]`, `ch` = `sel[1:0]`. -/
  | encf (m : Bool) (ch : ChannelNo)
  /-- TXARM, `45_transport.md` R180. -/
  | txarm
  /-- TXEV, `45_transport.md` R181. -/
  | txev
  /-- RXEV, `45_transport.md` R182; `byte` = `sel[7:0]`. -/
  | rxev (byte : Byte)
  /-- CONSUME, `45_transport.md` R183. -/
  | consume
  /-- SCAN, `46_display.md` R200. -/
  | scan
deriving DecidableEq, Repr

end Sys2Proof
end

