-- ==== Sys2Proof/Decode.lean ====
section
/-! DEFINITION. Decoding a command word CW32 and the encoder beside it (30_encoding.md R80, R82 to R85). -/

namespace Sys2Proof

/-- Why a word decodes to nothing: its `opc` is not in the opcode map (30_encoding.md R84). -/
inductive DecodeError where
  | reservedOpcode (opc : Byte)
deriving DecidableEq, Repr

/-- `opc`, bits 31:24 (R80). -/
def opcOf (w : CommandWord) : Byte := w.extractLsb' 24 8

/-- `sel`, bits 23:16 (R80). -/
def selOf (w : CommandWord) : Byte := w.extractLsb' 16 8

/-- `imm`, bits 15:0 (R80). -/
def immOf (w : CommandWord) : Word := w.extractLsb' 0 16

/-- The channel operand, `sel[1:0]` (R83). -/
def channelOf (w : CommandWord) : ChannelNo := (selOf w).extractLsb' 0 2

/-- The mode operand, `sel[7]` (R83). -/
def modeBitOf (w : CommandWord) : Bool := (selOf w).getLsbD 7

/-- Decoding, total on 32-bit words: the operation is known from `opc` alone (R80, R82), bits R83 does not name are
ignored (R85), a reserved `opc` is rejected by name (R84). -/
def decode (w : CommandWord) : Except DecodeError Instr :=
  let opc := opcOf w
  if opc = 0x00 then .ok .reset
  else if opc = 0x01 then .ok (.rd (selOf w))
  else if opc = 0x10 then .ok .tick
  else if opc = 0x11 then .ok .trigger
  else if opc = 0x12 then .ok .edge
  else if opc = 0x20 then .ok .dist
  else if opc = 0x21 then .ok (.push (channelOf w) (immOf w))
  else if opc = 0x22 then .ok (.pushd (channelOf w))
  else if opc = 0x30 then .ok (.level (immOf w))
  else if opc = 0x31 then .ok (.levelf (channelOf w))
  else if opc = 0x32 then .ok .presetNext
  else if opc = 0x40 then .ok (.enc (modeBitOf w) (immOf w))
  else if opc = 0x41 then .ok (.encf (modeBitOf w) (channelOf w))
  else if opc = 0x42 then .ok .txarm
  else if opc = 0x43 then .ok .txev
  else if opc = 0x50 then .ok (.rxev (selOf w))
  else if opc = 0x51 then .ok .consume
  else if opc = 0x60 then .ok .scan
  else .error (.reservedOpcode opc)

/-- The opcode map (R82). -/
def Instr.opcode : Instr → Byte
  | .reset => 0x00
  | .rd _ => 0x01
  | .tick => 0x10
  | .trigger => 0x11
  | .edge => 0x12
  | .dist => 0x20
  | .push _ _ => 0x21
  | .pushd _ => 0x22
  | .level _ => 0x30
  | .levelf _ => 0x31
  | .presetNext => 0x32
  | .enc _ _ => 0x40
  | .encf _ _ => 0x41
  | .txarm => 0x42
  | .txev => 0x43
  | .rxev _ => 0x50
  | .consume => 0x51
  | .scan => 0x60

/-- `sel` with only a channel operand in it, the rest 0 (R83, R85). -/
def channelSel (ch : ChannelNo) : Byte := ch.setWidth 8

/-- `sel` with only a mode operand in it, the rest 0 (R83, R85). -/
def modeSel (m : Bool) : Byte := if m then 0x80 else 0x00

/-- The canonical `sel` of an operation: ignored bits 0 (R83, R85). -/
def Instr.sel : Instr → Byte
  | .rd reg => reg
  | .push ch _ => channelSel ch
  | .pushd ch => channelSel ch
  | .levelf ch => channelSel ch
  | .enc m _ => modeSel m
  | .encf m ch => modeSel m ||| channelSel ch
  | .rxev byte => byte
  | .reset | .tick | .trigger | .edge | .dist | .level _ | .presetNext | .txarm | .txev | .consume | .scan => 0

/-- The canonical `imm` of an operation: 0 where it names none (R83, R85). -/
def Instr.imm : Instr → Word
  | .push _ sample => sample
  | .level distance => distance
  | .enc _ value => value
  | .reset | .rd _ | .tick | .trigger | .edge | .dist | .pushd _ | .levelf _ | .presetNext | .encf _ _ | .txarm
  | .txev | .rxev _ | .consume | .scan => 0

/-- The bits of `sel` and `imm` an operation reads (R83), as a mask of the command word. -/
def Instr.operandMask : Instr → CommandWord
  | .rd _ => 0x00FF0000
  | .push _ _ => 0x0003FFFF
  | .pushd _ => 0x00030000
  | .level _ => 0x0000FFFF
  | .levelf _ => 0x00030000
  | .enc _ _ => 0x0080FFFF
  | .encf _ _ => 0x00830000
  | .rxev _ => 0x00FF0000
  | .reset | .tick | .trigger | .edge | .dist | .presetNext | .txarm | .txev | .consume | .scan => 0

/-- The canonical command word of an operation, `opc << 24 | sel << 16 | imm` with ignored bits 0 (R80, R85, R95). -/
def encode (i : Instr) : CommandWord := (i.opcode ++ i.sel) ++ i.imm

/-- The host's decoder hook: the instruction read from a word of `nbits` bits numbered as spec/opcode_table.json
numbers them. A command word is one 32-bit word on the command port, so there is no byte order. -/
def decodeTableWord (nbits w : Nat) : Option Instr :=
  match decode (BitVec.ofNat 32 (w % 2 ^ nbits)) with
  | .ok i => some i
  | .error _ => none

end Sys2Proof
end

