-- ==== Sys2Proof/Config.lean ====
section
/-! DEFINITION. The configuration of the block: every parameter of 00_scope.md R9, with its default where R9 gives one
and an uninterpreted constant where R9 says OPEN (log 1, 2). -/

namespace Sys2Proof

/-- The sentinel byte, fixed at 0x2C (00_scope.md R9; 93_implementation_defined.md U7; log 15). -/
def sentinel : Byte := 0x2C

/-- One pair of the tone table (00_scope.md R9 `TONE`). -/
structure Tone where
  period : Word
  duty : Word
deriving DecidableEq, Repr, Inhabited

/-- One row of a dead-band table: on channel `ch`, for a previous returned value in `prevLo` to `prevHi` and a new mean
in `meanLo` to `meanHi` (ends included), the band is `band` (log 3). -/
structure BandRow where
  ch : ChannelNo
  prevLo : Word
  prevHi : Word
  meanLo : Word
  meanHi : Word
  band : Nat
deriving DecidableEq, Repr, Inhabited

/-- `DEADBAND(ch, p, a)` as plain data: the first row that covers the three arguments gives the band, else `otherwise`.
Every total function of the three arguments can be written so (`Obligations.EveryDeadbandIsATable`; log 3). -/
structure BandTable where
  rows : List BandRow
  otherwise : Nat
deriving DecidableEq, Repr, Inhabited

/-- The parameters of 00_scope.md R9, in R9's order and under R9's names. `SW` = 16, `NPRESET` = 5, `NDIG` = 4 are in
the types (R10), `SENTINEL` is `sentinel`, `FRAME_LEN` and `PAYLOAD_LEN` are derived below. -/
structure Config where
  /-- `TW`, the width of the tick counter. -/
  tw : Nat
  /-- `TRIG_TICKS`, the length of the trigger pulse in ticks. -/
  trigTicks : Nat
  /-- `TRIG_CLEARS_EDGE`. -/
  trigClearsEdge : Bool
  /-- `DIV`, ticks per distance unit. -/
  div : Nat
  /-- `DMAX`, the maximum reportable distance. -/
  dmax : Nat
  /-- `N`, the depth of every filter ring. -/
  n : Nat
  /-- `NCH`, the number of filter channels. -/
  nch : Nat
  /-- `DEADBAND`. -/
  deadband : BandTable
  /-- `PRESET_BANK[b][i]`. -/
  presetBank : Vector (Vector Word 5) 5
  /-- `TONE[l]`. -/
  tone : Vector Tone 6
  /-- `HAS_MODE_TAG`. -/
  hasModeTag : Bool
  /-- `MODE_TAG[m]`. -/
  modeTag : Vector Byte 2
  /-- `RX_CAP`, the capacity of the receive buffer. -/
  rxCap : Nat
  /-- `SEGMAP[d]`. -/
  segmap : Vector Byte 10
  /-- `DWELL_TICKS`: timing only, no rule reads it (70_reset_and_hazards.md R262; log 16). -/
  dwellTicks : Nat
deriving DecidableEq, Repr

namespace Config

/-- `FRAME_LEN` = NDIG + 1 + (1 if HAS_MODE_TAG) + 1 (00_scope.md R9). -/
def frameLen (c : Config) : Nat := 4 + 1 + (if c.hasModeTag then 1 else 0) + 1

/-- `PAYLOAD_LEN` = FRAME_LEN − 1 (00_scope.md R9). -/
def payloadLen (c : Config) : Nat := c.frameLen - 1

/-- OPEN: the dead-band (00_scope.md R9, decision D14). Uninterpreted (log 2). -/
opaque openDeadband : BandTable

/-- OPEN: `PRESET_BANK[1]` to `PRESET_BANK[4]` (00_scope.md R9, decision D19). Uninterpreted (log 2). -/
opaque openPreset : Nat → Vector Word 5

/-- OPEN: `TONE[1]` to `TONE[5]` (00_scope.md R9, decision D20). Uninterpreted (log 2). -/
opaque openTone : Nat → Tone

/-- OPEN: `DWELL_TICKS` (00_scope.md R9, decision D48). Uninterpreted (log 2). -/
opaque openDwellTicks : Nat

/-- The default segment table (30_encoding.md R93), which the spec marks as general knowledge (log 19). -/
def defaultSegmap : Vector Byte 10 :=
  #v[0x3F, 0x06, 0x5B, 0x4F, 0x66, 0x6D, 0x7D, 0x07, 0x7F, 0x6F]

/-- The configuration with every default of 00_scope.md R9 and every OPEN parameter uninterpreted. -/
def standard : Config where
  tw := 16
  trigTicks := 10
  trigClearsEdge := true
  div := 58
  dmax := 400
  n := 10
  nch := 4
  deadband := openDeadband
  presetBank := #v[#v[5, 25, 60, 100, 220], openPreset 1, openPreset 2, openPreset 3, openPreset 4]
  tone := #v[⟨0, 0⟩, openTone 1, openTone 2, openTone 3, openTone 4, openTone 5]
  hasModeTag := false
  modeTag := #v[0x30, 0x31]
  rxCap := 6
  segmap := defaultSegmap
  dwellTicks := openDwellTicks

end Config

end Sys2Proof
end

