-- ==== Sys2Proof/WellFormed.lean ====
section
/-! DEFINITION. What is well formed. An `Instr` always is: each operand's range is its type (30_encoding.md R83), and a
channel at or above `NCH` or a reserved register number is an operand the rules give an effect for. What can be ill
formed is a configuration: the constraints of 00_scope.md R10, one named check each, which `step` refuses on. -/

namespace Sys2Proof.Config

/-- 1 ≤ `TRIG_TICKS` ≤ 255 (R10). -/
abbrev TrigTicksOk (c : Config) : Prop := 1 ≤ c.trigTicks ∧ c.trigTicks ≤ 255

/-- 1 ≤ `TW` ≤ 16 (R10). -/
abbrev TwOk (c : Config) : Prop := 1 ≤ c.tw ∧ c.tw ≤ 16

/-- `DIV` ≥ 1 (R10). -/
abbrev DivOk (c : Config) : Prop := 1 ≤ c.div

/-- 1 ≤ `N` ≤ 16 (R10). -/
abbrev NOk (c : Config) : Prop := 1 ≤ c.n ∧ c.n ≤ 16

/-- 1 ≤ `NCH` ≤ 4 (R10). -/
abbrev NchOk (c : Config) : Prop := 1 ≤ c.nch ∧ c.nch ≤ 4

/-- `DMAX` < 2^`SW` (R10). -/
abbrev DmaxOk (c : Config) : Prop := c.dmax < 2 ^ 16

/-- `MODE_TAG[0]` ≠ `SENTINEL` and `MODE_TAG[1]` ≠ `SENTINEL` (R10). -/
abbrev ModeTagOk (c : Config) : Prop := c.modeTag[0] ≠ sentinel ∧ c.modeTag[1] ≠ sentinel

/-- `PAYLOAD_LEN` ≤ `RX_CAP` ≤ 8 (R10). -/
abbrev RxCapOk (c : Config) : Prop := c.payloadLen ≤ c.rxCap ∧ c.rxCap ≤ 8

/-- `TONE[0]` = (0, 0) (R10). -/
abbrev ToneOk (c : Config) : Prop := c.tone[0] = ⟨0, 0⟩

/-- The constraints every configuration must meet (00_scope.md R10). `SW` = 16, `NPRESET` = 5 and `NDIG` = 4 hold by
the types. -/
abbrev Legal (c : Config) : Prop :=
  c.TrigTicksOk ∧ c.TwOk ∧ c.DivOk ∧ c.NOk ∧ c.NchOk ∧ c.DmaxOk ∧ c.ModeTagOk ∧ c.RxCapOk ∧ c.ToneOk

end Sys2Proof.Config
end

