-- ==== Sys2Proof/Machine/State.lean ====
section
/-! DEFINITION. The state of the block as plain data (10_state.md R20 to R29, R36), the reasons a step can stop, and
the reset state (10_state.md R33). -/

namespace Sys2Proof.Machine

/-- No operation of the block raises an exception and none of the failure conditions the spec names stops it
(60_exceptions.md R210; 93_implementation_defined.md: "the block has no fault"), so there is no fault. Safe: no claim
can rest on one. -/
inductive Fault where
deriving DecidableEq, Repr

/-- Why a step is given no meaning. -/
inductive Refusal where
  /-- An operation without a meaning yet, raised by an arm of `exec`. Safe: nothing is claimed of it. No arm does. -/
  | notModelled (mnemonic : String)
  /-- Raised by `perform` on a command word whose `opc` is reserved: a model should refuse it (30_encoding.md R84; U8).
  Safe: the hardware ignores the word and goes on (log 7). -/
  | reservedOpcode (opc : Byte)
  /-- Raised by `perform` when the configuration breaks a constraint: the model refuses it (00_scope.md R10; U15).
  Safe: the spec gives such a configuration no meaning (log 8). -/
  | illegalConfig
deriving DecidableEq, Repr

/-- What the environment can do to the block at an operation boundary: a command word on the command port, or an event
on a pin (10_state.md R31; 30_encoding.md R81). -/
inductive Input where
  /-- `cmd_in` with the strobe `cmd_valid`. -/
  | command (w : CommandWord)
  /-- The pin `rst`. -/
  | rst
  /-- The pin `tick_in`. -/
  | tickIn
  /-- A change of level of `echo_in`. -/
  | echoIn
  /-- `rx_data_in` with the strobe `rx_valid`. -/
  | rxIn (b : Byte)
  /-- The strobe `tx_ready`. -/
  | txReady
deriving DecidableEq, Repr

/-- What the step just performed put on the result port and the transmit strobe (00_scope.md R14; 10_state.md R30).
The model's own field: an output of the step, which no operation reads (log 4). -/
structure Answer where
  /-- `res`, on `res_out`. -/
  res : Word
  /-- `tx_valid`, high for a TXEV that sends a byte. -/
  txValid : Bool
deriving DecidableEq, Repr

/-- The capture unit (10_state.md R21, R24, R25). The four counts are `TW` bits wide: they stay below 2^`TW`. -/
structure Capture where
  count : Word
  start : Word
  end_ : Word
  travel : Word
  pulseCnt : Byte
  complete : Bool
  armed : Bool
  lastEdge : Bool
  trig : Bool
deriving DecidableEq, Repr

/-- One filter channel (10_state.md R22): a ring of `N` samples, its index and fill, and the value last returned. -/
structure Channel where
  ring : List Word
  head : BitVec 4
  fcount : BitVec 5
  filt : Word
deriving DecidableEq, Repr

/-- The filter unit (10_state.md R22): `NCH` channels. -/
structure Filter where
  dist : Word
  chans : List Channel
deriving DecidableEq, Repr

/-- The alarm unit (10_state.md R23). -/
structure Alarm where
  level : BitVec 3
  pwmPeriod : Word
  pwmDuty : Word
  presetIdx : BitVec 3
deriving DecidableEq, Repr

/-- The transmit side (10_state.md R24, R25, R28, R36): `tx_buf`, `tx_idx`, `tx_en`, `tx_data`, `wire_out`. -/
structure Transmit where
  buf : List Byte
  idx : BitVec 3
  en : Bool
  data : Byte
  wireOut : List Byte
deriving DecidableEq, Repr

/-- The receive side (10_state.md R24, R25, R28): `rx_buf`, `rx_idx`, `rx_en`, `frame_ready`. -/
structure Receive where
  buf : List Byte
  idx : BitVec 4
  en : Bool
  frameReady : Bool
deriving DecidableEq, Repr

/-- The display unit (10_state.md R24, R29): `disp_digit`, `disp_tag`, `disp_mode`, `scan_idx`, `seg`, `dsel`. -/
structure Display where
  digit : Vector Byte 4
  tag : Byte
  mode : Byte
  scanIdx : BitVec 2
  seg : Byte
  dsel : BitVec 4
deriving DecidableEq, Repr

/-- The whole state. `cfg` (log 1), `inputs` (log 5) and `out` (log 4) are the model's own fields; the others are
exactly the state of 10_state.md R20. -/
structure State where
  /-- The configuration, constant during a run (00_scope.md R9; 20_memory.md R74). -/
  cfg : Config
  /-- The operations the environment is about to issue, oldest first (00_scope.md R13, R17). -/
  inputs : List Input
  /-- The outputs of the last operation. -/
  out : Answer
  cap : Capture
  filter : Filter
  alarm : Alarm
  /-- `frame[i]`, the frame last built (10_state.md R28). -/
  frame : List Byte
  tx : Transmit
  rx : Receive
  disp : Display
deriving DecidableEq, Repr

/-- A channel right after reset: empty ring, unprimed (10_state.md R33). -/
def Channel.initial (c : Config) : Channel :=
  { ring := List.replicate c.n 0, head := 0, fcount := 0, filt := 0 }

/-- The block of configuration `c` right after reset: the values of 10_state.md R33. -/
def State.initial (c : Config) : State where
  cfg := c
  inputs := []
  out := { res := 0, txValid := false }
  cap := { count := 0, start := 0, end_ := 0, travel := 0, pulseCnt := 0, complete := false, armed := false,
           lastEdge := false, trig := false }
  filter := { dist := 0, chans := List.replicate c.nch (Channel.initial c) }
  alarm := { level := 0, pwmPeriod := 0, pwmDuty := 0, presetIdx := 0 }
  frame := List.replicate c.frameLen 0
  tx := { buf := List.replicate c.frameLen 0, idx := 0, en := false, data := 0, wireOut := [] }
  rx := { buf := List.replicate c.rxCap 0, idx := 0, en := true, frameReady := false }
  disp := { digit := #v[0, 0, 0, 0], tag := 0, mode := 0, scanIdx := 0, seg := 0xFF, dsel := 0 }

/-- The machine right after reset: the default configuration of 00_scope.md R9, the values of 10_state.md R33, and
nothing issued yet. -/
def State.reset : State := State.initial Config.standard

/-- The output pins, each the value of a register or of the step's output (10_state.md R30). -/
structure Pins where
  trigOut : Bool
  pwmPeriodOut : Word
  pwmDutyOut : Word
  txDataOut : Byte
  txValid : Bool
  segOut : Byte
  dselOut : BitVec 4
  resOut : Word
deriving DecidableEq, Repr

end Sys2Proof.Machine
end

