-- ==== Sys2Proof/Machine/Ops.lean ====
section
/-! DEFINITION. The named operations over registers and buffers that the meanings share (00_scope.md R12; 20_memory.md;
47_common_laws.md R275). The block has no exception, so no operation takes one (60_exceptions.md R210, R219, R220). -/

namespace Sys2Proof.Machine

/-- `res <- r` of an operation that sends no byte (00_scope.md R14; 10_state.md R30). -/
def State.answer (s : State) (r : Word) : State := { s with out := { res := r, txValid := false } }

/-- `res <- r` of a TXEV that sends a byte, with the strobe `tx_valid` (00_scope.md R14; 10_state.md R30). -/
def State.answerSent (s : State) (r : Word) : State := { s with out := { res := r, txValid := true } }

/-- The output pins (10_state.md R30). -/
def State.pins (s : State) : Pins where
  trigOut := s.cap.trig
  pwmPeriodOut := s.alarm.pwmPeriod
  pwmDutyOut := s.alarm.pwmDuty
  txDataOut := s.tx.data
  txValid := s.out.txValid
  segOut := s.disp.seg
  dselOut := s.disp.dsel
  resOut := s.out.res

/-- `MemRead(buf, i)` (00_scope.md R12). In range by 10_state.md R37 in every reachable state; elsewhere 0 (log 10). -/
def memRead {k : Nat} (buf : List (BitVec k)) (i : Nat) : BitVec k := buf.getD i 0

/-- `MemWrite(buf, i, v)` (00_scope.md R12). In range by 10_state.md R37 in every reachable state; elsewhere nothing is
written (log 10). -/
def memWrite {k : Nat} (buf : List (BitVec k)) (i : Nat) (v : BitVec k) : List (BitVec k) := buf.set i v

/-- `trunc_TW(v)` (00_scope.md R12): `v` modulo 2^`TW`. -/
def truncTW (c : Config) (v : Word) : Word := BitVec.ofNat 16 (v.toNat % 2 ^ c.tw)

/-- `abs(a − b)` on naturals (00_scope.md R12). -/
def absDiff (a b : Nat) : Nat := if b ≤ a then a - b else b - a

/-- Channel number `ch`, with a stand-in for a number at or above `NCH`, which no operation asks for (log 10). -/
def State.chan (s : State) (ch : Nat) : Channel := s.filter.chans.getD ch (Channel.initial s.cfg)

/-- Channel `ch` becomes `k`; every other channel stays. -/
def State.setChan (s : State) (ch : Nat) (k : Channel) : State :=
  { s with filter := { s.filter with chans := s.filter.chans.set ch k } }

/-- The samples a ring holds, newest first: the `k` cells that end at the cell `last` written last, counted back modulo
`n` (42_filter.md R133: "the last `k` pushed"; log 12). -/
def heldSamples (n : Nat) (ring : List Word) (last k : Nat) : List Word :=
  (List.range k).map fun j => memRead ring ((last + n - j) % n)

/-- The exact sum of samples, a natural (47_common_laws.md R270). -/
def sumSamples (l : List Word) : Nat := (l.map BitVec.toNat).sum

/-- `emit(b)`: `wire_out` gains the byte at its end (00_scope.md R12; 10_state.md R36). -/
def emit (wire : List Byte) (b : Byte) : List Byte := wire ++ [b]

/-- Every buffer has exactly the number of cells the configuration gives it (20_memory.md R60): the canonical form of
the block's memory. -/
def Memory.wf (s : State) : Bool :=
  s.filter.chans.length == s.cfg.nch
    && s.filter.chans.all (fun k => k.ring.length == s.cfg.n)
    && s.frame.length == s.cfg.frameLen
    && s.tx.buf.length == s.cfg.frameLen
    && s.rx.buf.length == s.cfg.rxCap

end Sys2Proof.Machine
end

