-- ==== Sys2Proof/Machine/Flags.lean ====
section
/-! DEFINITION. The seven status flags as one word (10_state.md R25, R26). The block has no arithmetic condition flags
(47_common_laws.md R270). -/

namespace Sys2Proof.Machine

/-- `STATUS` (10_state.md R26): bit 0 `complete`, 1 `armed`, 2 `last_edge`, 3 `trig`, 4 `tx_en`, 5 `rx_en`,
6 `frame_ready`, 15:7 zero. -/
def statusWord (s : State) : Word :=
  0#9 ++ BitVec.ofBool s.rx.frameReady ++ BitVec.ofBool s.rx.en ++ BitVec.ofBool s.tx.en ++ BitVec.ofBool s.cap.trig
    ++ BitVec.ofBool s.cap.lastEdge ++ BitVec.ofBool s.cap.armed ++ BitVec.ofBool s.cap.complete

end Sys2Proof.Machine
end

