-- ==== Sys2Proof/Machine/Operands.lean ====
section
/-! DEFINITION. The operand forms (47_common_laws.md R275): table lookups in the configuration, a register by its number
(10_state.md R27). -/

namespace Sys2Proof.Machine

/-- Whether a row of a dead-band table covers the three arguments (log 3). -/
def rowCovers (r : BandRow) (ch : ChannelNo) (p a : Word) : Bool :=
  decide (r.ch = ch ∧ r.prevLo ≤ p ∧ p ≤ r.prevHi ∧ r.meanLo ≤ a ∧ a ≤ r.meanHi)

/-- The band a table gives: the first row that covers the arguments, else the table's last word (log 3). -/
def bandOf (t : BandTable) (ch : ChannelNo) (p a : Word) : Nat :=
  match t.rows.find? (fun r => rowCovers r ch p a) with
  | some r => r.band
  | none => t.otherwise

/-- `DEADBAND(ch, p, a)` (00_scope.md R9; 42_filter.md R134). -/
def deadband (c : Config) (ch : ChannelNo) (p a : Word) : Nat := bandOf c.deadband ch p a

/-- `PRESET_BANK[idx]`, the active preset table (10_state.md R23; 43_alarm.md R154). An index above 4, which no reachable
state holds, gives a table of zeros (log 11). -/
def presetTable (c : Config) (idx : BitVec 3) : Vector Word 5 :=
  c.presetBank[idx.toNat]?.getD (Vector.replicate 5 0)

/-- `TONE[l]` (00_scope.md R9; 43_alarm.md R155), l in 0 to 5; no operation asks for another. -/
def toneOf (c : Config) (l : Nat) : Tone := c.tone[l]?.getD ⟨0, 0⟩

/-- `MODE_TAG[m]` (00_scope.md R9; 30_encoding.md R89). -/
def modeTagOf (c : Config) (m : Bool) : Byte := if m then c.modeTag[1] else c.modeTag[0]

/-- `segpat(b)` (46_display.md R202): the complement of a digit's mask, all segments off for any other byte. -/
def segpat (c : Config) (b : Byte) : Byte :=
  if 0x30 ≤ b ∧ b ≤ 0x39 then 0xFF - c.segmap[(b - 0x30).toNat]?.getD 0 else 0xFF

/-- A register of channel `ch`, 0 when the configuration has no such channel (10_state.md R27). -/
def channelReg (s : State) (ch : Nat) (f : Channel → Word) : Word :=
  if ch < s.cfg.nch then f (s.chan ch) else 0

/-- Cell `i` of a byte buffer of `size` cells, 0 beyond it (10_state.md R27). -/
def bufferReg (buf : List Byte) (size i : Nat) : Word :=
  if i < size then (memRead buf i).setWidth 16 else 0

/-- Cell `i` of a ring, 0 beyond `N` (10_state.md R27). -/
def ringReg (n i : Nat) (k : Channel) : Word := if i < n then memRead k.ring i else 0

/-- `regread(n)`: the register with the number `reg`, zero-extended to 16 bits, 0 for a reserved number (10_state.md R27;
40_system.md R101). -/
def regRead (s : State) (reg : Byte) : Word :=
  let n := reg.toNat
  if n = 0x00 then statusWord s
  else if n = 0x01 then s.cap.count
  else if n = 0x02 then s.cap.start
  else if n = 0x03 then s.cap.end_
  else if n = 0x04 then s.cap.travel
  else if n = 0x05 then s.filter.dist
  else if n = 0x06 then s.cap.pulseCnt.setWidth 16
  else if 0x10 ≤ n ∧ n ≤ 0x13 then channelReg s (n - 0x10) (fun k => k.filt)
  else if 0x14 ≤ n ∧ n ≤ 0x17 then channelReg s (n - 0x14) (fun k => k.fcount.setWidth 16)
  else if 0x18 ≤ n ∧ n ≤ 0x1B then channelReg s (n - 0x18) (fun k => k.head.setWidth 16)
  else if n = 0x20 then s.alarm.level.setWidth 16
  else if n = 0x21 then s.alarm.pwmPeriod
  else if n = 0x22 then s.alarm.pwmDuty
  else if n = 0x23 then s.alarm.presetIdx.setWidth 16
  else if 0x28 ≤ n ∧ n ≤ 0x2C then (presetTable s.cfg s.alarm.presetIdx)[n - 0x28]?.getD 0
  else if 0x30 ≤ n ∧ n ≤ 0x37 then bufferReg s.frame s.cfg.frameLen (n - 0x30)
  else if 0x38 ≤ n ∧ n ≤ 0x3E then bufferReg s.tx.buf s.cfg.frameLen (n - 0x38)
  else if n = 0x3F then s.tx.idx.setWidth 16
  else if 0x40 ≤ n ∧ n ≤ 0x47 then bufferReg s.rx.buf s.cfg.rxCap (n - 0x40)
  else if n = 0x48 then s.rx.idx.setWidth 16
  else if n = 0x49 then s.tx.data.setWidth 16
  else if 0x50 ≤ n ∧ n ≤ 0x53 then (s.disp.digit[n - 0x50]?.getD 0).setWidth 16
  else if n = 0x54 then s.disp.tag.setWidth 16
  else if n = 0x55 then s.disp.mode.setWidth 16
  else if n = 0x56 then s.disp.scanIdx.setWidth 16
  else if n = 0x57 then s.disp.seg.setWidth 16
  else if n = 0x58 then s.disp.dsel.setWidth 16
  else if 0x80 ≤ n ∧ n ≤ 0xBF then channelReg s ((n - 0x80) / 16) (ringReg s.cfg.n ((n - 0x80) % 16))
  else 0

end Sys2Proof.Machine
end

