-- ==== Sys2Proof/Machine/Alarm.lean ====
section
/-! DEFINITION. The alarm unit: LEVEL, LEVELF, PRESET_NEXT (43_alarm.md). -/

namespace Sys2Proof.Machine

/-- The level of a distance against a table: the first index that matches gives 5 − index, no match 0 (43_alarm.md R150,
R151). -/
def levelFor (table : Vector Word 5) (d : Word) : Nat :=
  [0, 1, 2, 3, 4].foldl (fun l i => if l = 0 ∧ table[i]? = some d then 5 - i else l) 0

/-- The level and the tone registers for a level (43_alarm.md R150, R155). -/
def loadLevel (c : Config) (l : Nat) (a : Alarm) : Alarm :=
  { a with level := BitVec.ofNat 3 l, pwmPeriod := (toneOf c l).period, pwmDuty := (toneOf c l).duty }

/-- The alarm for a distance (43_alarm.md R150). -/
def soundLevel (d : Word) (s : State) : State :=
  let l := levelFor (presetTable s.cfg s.alarm.presetIdx) d
  { s with alarm := loadLevel s.cfg l s.alarm }.answer (BitVec.ofNat 16 l)

/-- `(preset_idx + 1) mod 5` (43_alarm.md R153). -/
def nextPreset (i : BitVec 3) : BitVec 3 := BitVec.ofNat 3 ((i.toNat + 1) % 5)

/-- LEVEL (43_alarm.md R150). -/
def execLevel (distance : Word) (s : State) : Host.Outcome State Fault Refusal :=
  .next (soundLevel distance s)

/-- LEVELF (43_alarm.md R152): LEVEL of `filt[ch]`; nothing but `res <- 0` when the configuration has no such channel. -/
def execLevelf (ch : ChannelNo) (s : State) : Host.Outcome State Fault Refusal :=
  .next (if ch.toNat < s.cfg.nch then soundLevel (s.chan ch.toNat).filt s else s.answer 0)

/-- PRESET_NEXT (43_alarm.md R153). -/
def execPresetNext (s : State) : Host.Outcome State Fault Refusal :=
  .next ({ s with alarm := { s.alarm with presetIdx := nextPreset s.alarm.presetIdx } }.answer
    ((nextPreset s.alarm.presetIdx).setWidth 16))

end Sys2Proof.Machine
end

