-- ==== Sys2Proof/Machine/Capture.lean ====
section
/-! DEFINITION. The capture unit: TICK, TRIGGER, EDGE (41_capture.md). -/

namespace Sys2Proof.Machine

/-- The trigger pulse runs down by one tick; at 0 it ends and the capture is armed (41_capture.md R110). -/
def runDownPulse (k : Capture) : Capture :=
  if k.pulseCnt - 1 = 0 then { k with pulseCnt := k.pulseCnt - 1, trig := false, armed := true }
  else { k with pulseCnt := k.pulseCnt - 1 }

/-- TICK on the capture unit (41_capture.md R110). -/
def tickCapture (c : Config) (k : Capture) : Capture :=
  let k' := { k with count := truncTW c (k.count + 1) }
  if k'.trig then runDownPulse k' else k'

/-- TRIGGER on the capture unit (41_capture.md R111). -/
def triggerCapture (c : Config) (k : Capture) : Capture :=
  { k with
    count := 0, trig := true, pulseCnt := BitVec.ofNat 8 c.trigTicks, armed := false, complete := false,
    lastEdge := if c.trigClearsEdge then false else k.lastEdge }

/-- An edge taken as rising (41_capture.md R112). -/
def risingEdge (k : Capture) : Capture := { k with start := k.count, lastEdge := true }

/-- An edge taken as falling (41_capture.md R112, R113). -/
def fallingEdge (c : Config) (k : Capture) : Capture :=
  { k with end_ := k.count, travel := truncTW c (k.count - k.start), lastEdge := false, complete := true }

/-- EDGE on the capture unit (41_capture.md R112). -/
def edgeCapture (c : Config) (k : Capture) : Capture :=
  if k.armed then (if k.lastEdge then fallingEdge c k else risingEdge k) else k

/-- TICK (41_capture.md R110). -/
def execTick (s : State) : Host.Outcome State Fault Refusal :=
  .next ({ s with cap := tickCapture s.cfg s.cap }.answer 0)

/-- TRIGGER (41_capture.md R111). -/
def execTrigger (s : State) : Host.Outcome State Fault Refusal :=
  .next ({ s with cap := triggerCapture s.cfg s.cap }.answer 0)

/-- EDGE (41_capture.md R112). -/
def execEdge (s : State) : Host.Outcome State Fault Refusal :=
  .next ({ s with cap := edgeCapture s.cfg s.cap }.answer 0)

end Sys2Proof.Machine
end

