-- ==== Sys2Proof/Machine/Codec.lean ====
section
/-! DEFINITION. The frame codec: ENC, ENCF (44_frame_codec.md; 30_encoding.md R86 to R90). -/

namespace Sys2Proof.Machine

/-- The active digit count of a value (30_encoding.md R88). -/
def digitCount (v : Nat) : Nat := if v > 999 then 4 else if v > 99 then 3 else if v > 9 then 2 else 1

/-- The walk over `k` digit slots, least significant digit first (44_frame_codec.md R165). -/
def digitWalk : Nat → Nat → List Byte
  | 0, _ => []
  | k + 1, w => BitVec.ofNat 8 (0x30 + w % 10) :: digitWalk k (w / 10)

/-- The whole frame of a value: four digit slots, the count tag, the mode tag if any, the sentinel (44_frame_codec.md
R165; 30_encoding.md R86). -/
def frameOf (c : Config) (m : Bool) (v : Word) : List Byte :=
  digitWalk 4 v.toNat ++ [BitVec.ofNat 8 (0x30 + digitCount v.toNat)]
    ++ (if c.hasModeTag then [modeTagOf c m] else []) ++ [sentinel]

/-- ENC of a value on the block (44_frame_codec.md R165). -/
def buildFrame (m : Bool) (v : Word) (s : State) : State :=
  { s with frame := frameOf s.cfg m v }.answer (BitVec.ofNat 16 (digitCount v.toNat))

/-- ENC (44_frame_codec.md R165, R166). -/
def execEnc (m : Bool) (value : Word) (s : State) : Host.Outcome State Fault Refusal :=
  .next (buildFrame m value s)

/-- ENCF (44_frame_codec.md R167): ENC of `filt[ch]`; nothing but `res <- 0` when the configuration has no such channel. -/
def execEncf (m : Bool) (ch : ChannelNo) (s : State) : Host.Outcome State Fault Refusal :=
  .next (if ch.toNat < s.cfg.nch then buildFrame m (s.chan ch.toNat).filt s else s.answer 0)

end Sys2Proof.Machine
end

