-- ==== Sys2Proof/Machine/Display.lean ====
section
/-! DEFINITION. The display unit: SCAN (46_display.md). -/

namespace Sys2Proof.Machine

/-- Whether the displayed frame's mode tag, where there is one, is recognised (46_display.md R201). -/
def modeRecognised (c : Config) (d : Display) : Bool :=
  !c.hasModeTag || d.mode == c.modeTag[0] || d.mode == c.modeTag[1]

/-- `active_count()` (46_display.md R201). -/
def activeCount (c : Config) (d : Display) : Nat :=
  if 0x31 ≤ d.tag ∧ d.tag ≤ 0x34 ∧ modeRecognised c d then (d.tag - 0x30).toNat else 0

/-- The place the next SCAN lights when the active count is `k` (46_display.md R200). -/
def scanPlace (d : Display) (k : Nat) : Nat := if d.scanIdx.toNat < k then d.scanIdx.toNat else 0

/-- A dark step of the scan (46_display.md R200). -/
def scanDark (d : Display) : Display := { d with dsel := 0, seg := 0xFF, scanIdx := 0 }

/-- A step of the scan that lights place `p` of `k` (46_display.md R200). -/
def scanLight (c : Config) (d : Display) (p k : Nat) : Display :=
  { d with
    dsel := BitVec.ofNat 4 (2 ^ p), seg := segpat c (d.digit[p]?.getD 0), scanIdx := BitVec.ofNat 2 ((p + 1) % k) }

/-- One step of the scan sequencer (46_display.md R200). -/
def scanStep (c : Config) (d : Display) : Display :=
  if activeCount c d = 0 then scanDark d else scanLight c d (scanPlace d (activeCount c d)) (activeCount c d)

/-- `(dsel << 8) + seg`, the result of SCAN (46_display.md R200; 30_encoding.md R98). -/
def busWord (d : Display) : Word := (d.dsel.setWidth 16 <<< 8) + d.seg.setWidth 16

/-- SCAN (46_display.md R200). -/
def execScan (s : State) : Host.Outcome State Fault Refusal :=
  .next ({ s with disp := scanStep s.cfg s.disp }.answer (busWord (scanStep s.cfg s.disp)))

end Sys2Proof.Machine
end

