-- ==== Sys2Proof/Machine/Filter.lean ====
section
/-! DEFINITION. The filter unit: DIST, PUSH, PUSHD (42_filter.md). -/

namespace Sys2Proof.Machine

/-- `min(floor(travel / DIV), DMAX)` (42_filter.md R130). -/
def distanceOf (c : Config) (travel : Word) : Word := BitVec.ofNat 16 (min (travel.toNat / c.div) c.dmax)

/-- The number of samples held after an insert, `min(fcount + 1, N)` (42_filter.md R131). -/
def heldAfter (c : Config) (k : Channel) : Nat := min (k.fcount.toNat + 1) c.n

/-- The mean of the samples held after the insert, `floor(sum / k)` (42_filter.md R131, R133). -/
def meanAfter (c : Config) (k : Channel) (sample : Word) : Nat :=
  sumSamples (heldSamples c.n (memWrite k.ring k.head.toNat sample) k.head.toNat (heldAfter c k)) / heldAfter c k

/-- The dead-band: hold the value returned last time when the mean is strictly closer to it than the band, else the mean
(42_filter.md R131, R134). -/
def applyDeadband (c : Config) (ch : ChannelNo) (p a : Word) : Word :=
  if absDiff a.toNat p.toNat < deadband c ch p a then p else a

/-- One sample pushed on channel `ch` (42_filter.md R131). -/
def pushChannel (c : Config) (ch : ChannelNo) (k : Channel) (sample : Word) : Channel where
  ring := memWrite k.ring k.head.toNat sample
  head := BitVec.ofNat 4 ((k.head.toNat + 1) % c.n)
  fcount := BitVec.ofNat 5 (heldAfter c k)
  filt := applyDeadband c ch k.filt (BitVec.ofNat 16 (meanAfter c k sample))

/-- `push_sample(channel, raw)` on the block: nothing but `res <- 0` when the configuration has no such channel
(42_filter.md R131). -/
def pushSample (ch : ChannelNo) (sample : Word) (s : State) : State :=
  if ch.toNat < s.cfg.nch then
    let k := pushChannel s.cfg ch (s.chan ch.toNat) sample
    (s.setChan ch.toNat k).answer k.filt
  else s.answer 0

/-- DIST (42_filter.md R130). -/
def execDist (s : State) : Host.Outcome State Fault Refusal :=
  .next ({ s with filter := { s.filter with dist := distanceOf s.cfg s.cap.travel } }.answer
    (distanceOf s.cfg s.cap.travel))

/-- PUSH (42_filter.md R131). -/
def execPush (ch : ChannelNo) (sample : Word) (s : State) : Host.Outcome State Fault Refusal :=
  .next (pushSample ch sample s)

/-- PUSHD (42_filter.md R132): PUSH of the register `dist`. -/
def execPushd (ch : ChannelNo) (s : State) : Host.Outcome State Fault Refusal :=
  .next (pushSample ch s.filter.dist s)

end Sys2Proof.Machine
end

