-- ==== Sys2Proof/Machine/System.lean ====
section
/-! DEFINITION. The system operations RESET and RD (40_system.md). -/

namespace Sys2Proof.Machine

/-- RESET (40_system.md R100; 10_state.md R33; 70_reset_and_hazards.md R240, R241): every register, flag, buffer cell and
`wire_out` takes its reset value, `res <- 0`; the configuration and what the environment is about to issue are no state
of the block and stay (log 14). -/
def execReset (s : State) : Host.Outcome State Fault Refusal :=
  .next { State.initial s.cfg with inputs := s.inputs }

/-- RD (40_system.md R101): `res <- regread(n)`, and no state is written. -/
def execRd (reg : Byte) (s : State) : Host.Outcome State Fault Refusal :=
  .next (s.answer (regRead s reg))

end Sys2Proof.Machine
end

