-- ==== Sys2Proof/Machine/Transport.lean ====
section
/-! DEFINITION. The byte-stream transport: TXARM, TXEV, RXEV, CONSUME (45_transport.md). -/

namespace Sys2Proof.Machine

/-- The copy of the built frame into the transmit buffer, armed from index 0 (45_transport.md R180). -/
def armSend (frame : List Byte) (x : Transmit) : Transmit := { x with buf := frame, idx := 0, en := true }

/-- The byte the next transmit event sends (45_transport.md R181). -/
def nextTxByte (x : Transmit) : Byte := memRead x.buf x.idx.toNat

/-- One byte sent; the last one clears the enable (45_transport.md R181). -/
def sendByte (c : Config) (x : Transmit) : Transmit :=
  { x with
    wireOut := emit x.wireOut (nextTxByte x), data := nextTxByte x, idx := x.idx + 1,
    en := if x.idx.toNat + 1 = c.frameLen then false else x.en }

/-- The sentinel closes the frame (45_transport.md R182). -/
def closeFrame (r : Receive) : Receive := { r with idx := 0, frameReady := true, en := false }

/-- A payload byte is stored, and the index moves on or wraps (45_transport.md R182, R184). -/
def storeByte (c : Config) (b : Byte) (r : Receive) : Receive :=
  { r with
    buf := memWrite r.buf r.idx.toNat b,
    idx := if r.idx.toNat + 1 = c.rxCap then 0 else r.idx + 1 }

/-- The receive event (45_transport.md R182). -/
def receiveByte (c : Config) (b : Byte) (r : Receive) : Receive :=
  if r.en then (if b = sentinel then closeFrame r else storeByte c b r) else r

/-- The received frame on the display, scan restarted and dark (45_transport.md R183; 44_frame_codec.md R168). -/
def showFrame (c : Config) (buf : List Byte) (d : Display) : Display :=
  { d with
    digit := #v[memRead buf 0, memRead buf 1, memRead buf 2, memRead buf 3], tag := memRead buf 4,
    mode := if c.hasModeTag then memRead buf 5 else d.mode,
    scanIdx := 0, dsel := 0, seg := 0xFF }

/-- The receiver after the hand-off (45_transport.md R183). -/
def releaseBuffer (r : Receive) : Receive := { r with frameReady := false, en := true }

/-- TXARM (45_transport.md R180). -/
def execTxarm (s : State) : Host.Outcome State Fault Refusal :=
  .next ({ s with tx := armSend s.frame s.tx }.answer 0)

/-- TXEV (45_transport.md R181). -/
def execTxev (s : State) : Host.Outcome State Fault Refusal :=
  .next (if s.tx.en then { s with tx := sendByte s.cfg s.tx }.answerSent (0x0100 + (nextTxByte s.tx).setWidth 16)
    else s.answer 0)

/-- RXEV (45_transport.md R182). -/
def execRxev (byte : Byte) (s : State) : Host.Outcome State Fault Refusal :=
  .next ({ s with rx := receiveByte s.cfg byte s.rx }.answer 0)

/-- CONSUME (45_transport.md R183). -/
def execConsume (s : State) : Host.Outcome State Fault Refusal :=
  .next (if s.rx.frameReady then
      { s with disp := showFrame s.cfg s.rx.buf s.disp, rx := releaseBuffer s.rx }.answer 1
    else s.answer 0)

end Sys2Proof.Machine
end

