-- ==== Sys2Proof/Machine/Dispatch.lean ====
section
/-! DEFINITION. One arm per operation (30_encoding.md R82). -/

namespace Sys2Proof.Machine

def exec (i : Instr) (s : State) : Host.Outcome State Fault Refusal :=
  match i with
  | .reset => Sys2Proof.Machine.execReset s
  | .rd reg => Sys2Proof.Machine.execRd reg s
  | .tick => Sys2Proof.Machine.execTick s
  | .trigger => Sys2Proof.Machine.execTrigger s
  | .edge => Sys2Proof.Machine.execEdge s
  | .dist => Sys2Proof.Machine.execDist s
  | .push ch sample => Sys2Proof.Machine.execPush ch sample s
  | .pushd ch => Sys2Proof.Machine.execPushd ch s
  | .level distance => Sys2Proof.Machine.execLevel distance s
  | .levelf ch => Sys2Proof.Machine.execLevelf ch s
  | .presetNext => Sys2Proof.Machine.execPresetNext s
  | .enc m value => Sys2Proof.Machine.execEnc m value s
  | .encf m ch => Sys2Proof.Machine.execEncf m ch s
  | .txarm => Sys2Proof.Machine.execTxarm s
  | .txev => Sys2Proof.Machine.execTxev s
  | .rxev byte => Sys2Proof.Machine.execRxev byte s
  | .consume => Sys2Proof.Machine.execConsume s
  | .scan => Sys2Proof.Machine.execScan s

end Sys2Proof.Machine
end

