-- ==== Sys2Proof/Machine/Port.lean ====
section
/-! DEFINITION. How an operation reaches the block: by a command word or by a pin (10_state.md R31; 30_encoding.md R81),
at an operation boundary (60_exceptions.md R219). -/

namespace Sys2Proof.Machine

/-- The operation an input starts (10_state.md R31; 30_encoding.md R81). -/
def inputInstr : Input → Except DecodeError Instr
  | .command w => decode w
  | .rst => .ok .reset
  | .tickIn => .ok .tick
  | .echoIn => .ok .edge
  | .rxIn b => .ok (.rxev b)
  | .txReady => .ok .txev

/-- The input that is a command word, as the host's hook lays it out: the bits above `nbits` are 0. -/
def wordInput (nbits w : Nat) : Input := .command (BitVec.ofNat 32 (w % 2 ^ nbits))

/-- The block performs the operation an input starts. A reserved word is refused (30_encoding.md R84; log 7), and so is
everything under a configuration that breaks a constraint (00_scope.md R10; log 8). -/
def perform (x : Input) (s : State) : Host.Outcome State Fault Refusal :=
  if s.cfg.Legal then
    match inputInstr x with
    | .ok i => exec i s
    | .error (.reservedOpcode opc) => .refused (.reservedOpcode opc)
  else .refused .illegalConfig

/-- Nothing is issued: every register and pin holds, and the strobe `tx_valid` is low (00_scope.md R17; 10_state.md R30;
log 6). -/
def idle (s : State) : State := { s with out := { s.out with txValid := false } }

end Sys2Proof.Machine
end

