-- ==== Sys2Proof/Machine/Step.lean ====
section
/-! DEFINITION. One step of the block: the oldest operation the environment has issued (00_scope.md R13, R17; log 5). -/

namespace Sys2Proof.Machine

/-- One step: the oldest input is taken and its operation performed; with none, nothing happens. -/
def step (s : State) : Host.Outcome State Fault Refusal :=
  match s.inputs with
  | [] => .next (idle s)
  | x :: rest => perform x { s with inputs := rest }

/-- The host's hook: the command word is what the environment issues next, so the next step performs exactly it. -/
def State.withFetchWord (s : State) (nbits w : Nat) : State :=
  { s with inputs := wordInput nbits w :: s.inputs }

end Sys2Proof.Machine
end

