-- ==== Sys2Proof/Machine/Run.lean ====
section
/-! DEFINITION. Runs of operations and what they let one observe (00_scope.md R17), and the pseudo-operations, each a
fixed list of operations (30_encoding.md R96). -/

namespace Sys2Proof.Machine

/-- The operations of a list performed in order (00_scope.md R17). -/
def runInstrs : List Instr → State → Host.Outcome State Fault Refusal
  | [], s => .next s
  | i :: rest, s =>
    match exec i s with
    | .next t => runInstrs rest t
    | .fault f => .fault f
    | .refused r => .refused r

/-- What is observed after each operation of a list, in order: the pins, `res_out` among them (00_scope.md R17). -/
def observations : List Instr → State → List Pins
  | [], _ => []
  | i :: rest, s =>
    match exec i s with
    | .next t => t.pins :: observations rest t
    | .fault _ => []
    | .refused _ => []

/-- The sample an operation performed in a state puts into the ring of channel `ch`, if it is a push on it (42_filter.md
R131, R132). -/
def sampleOf (ch : ChannelNo) (i : Instr) (s : State) : List Word :=
  match i with
  | .push c v => if c = ch then [v] else []
  | .pushd c => if c = ch then [s.filter.dist] else []
  | .reset | .rd _ | .tick | .trigger | .edge | .dist | .level _ | .levelf _ | .presetNext | .enc _ _ | .encf _ _ | .txarm
  | .txev | .rxev _ | .consume | .scan => []

/-- The samples a run pushes on channel `ch`, oldest first (42_filter.md R133). -/
def samplesPushed (ch : ChannelNo) : List Instr → State → List Word
  | [], _ => []
  | i :: rest, s =>
    match exec i s with
    | .next t => sampleOf ch i s ++ samplesPushed ch rest t
    | .fault _ => []
    | .refused _ => []

/-- `TICKS n` (R96). -/
def ticks (n : Nat) : List Instr := List.replicate n .tick

/-- `SCANS n` (R96). -/
def scans (n : Nat) : List Instr := List.replicate n .scan

/-- `TXEVS n` (R96). -/
def txevs (n : Nat) : List Instr := List.replicate n .txev

/-- One RXEV per byte, in order (R96 `RXSTR`). -/
def rxBytes (bytes : List Byte) : List Instr := bytes.map .rxev

/-- `SEND` (R96). -/
def sendOps (c : Config) : List Instr := .txarm :: txevs c.frameLen

/-- `MEASURE r, w` (R96): a cycle whose echo rises `r` ticks after the pulse ends and lasts `w` ticks. -/
def measureOps (c : Config) (r w : Nat) : List Instr :=
  .trigger :: (ticks c.trigTicks ++ ticks r ++ [.edge] ++ ticks w ++ [.edge])

end Sys2Proof.Machine
end

