-- ==== Sys2Proof/Machine/Assembler.lean ====
section
/-! DEFINITION. The assembler of 30_encoding.md R95 and the pseudo-operations of R96, on one line of text. What R95 does
not say (letter case, white space, an operand out of range) is log 18. -/

namespace Sys2Proof.Machine

/-- A token of a line. -/
inductive Tok where
  | word (w : List Char)
  | num (n : Nat)
  | text (t : List Char)
  | comma
  | openBracket
  | closeBracket
deriving DecidableEq, Repr

/-- Where the reader of a line stands: in code, with the word begun (last character first), or inside a quoted text. -/
inductive LexMode where
  | code (acc : List Char)
  | quoted (acc : List Char)
deriving DecidableEq, Repr

/-- The value of a digit, decimal or hexadecimal. -/
def digitValue (c : Char) : Option Nat :=
  if '0' ≤ c ∧ c ≤ '9' then some (c.toNat - 0x30)
  else if 'A' ≤ c ∧ c ≤ 'F' then some (c.toNat - 0x41 + 10)
  else if 'a' ≤ c ∧ c ≤ 'f' then some (c.toNat - 0x61 + 10)
  else none

/-- The number a string of digits spells in a base, starting from `acc`. -/
def numberFrom (base acc : Nat) : List Char → Option Nat
  | [] => some acc
  | c :: cs =>
    match digitValue c with
    | some d => if d < base then numberFrom base (acc * base + d) cs else none
    | none => none

/-- A number: decimal, or hexadecimal with `0x` (R95). -/
def parseNumber : List Char → Option Nat
  | '0' :: 'x' :: d :: ds => numberFrom 16 0 (d :: ds)
  | d :: ds => numberFrom 10 0 (d :: ds)
  | [] => none

/-- The token a finished run of characters is (last character first): none, a number, or a name. -/
def flushWord (acc : List Char) : Option (List Tok) :=
  match acc.reverse with
  | [] => some []
  | c :: cs => if '0' ≤ c ∧ c ≤ '9' then (parseNumber (c :: cs)).map (fun n => [.num n]) else some [.word (c :: cs)]

/-- The tokens of a finished run, then those of the rest. -/
def thenToks (first rest : Option (List Tok)) : Option (List Tok) :=
  match first, rest with
  | some a, some b => some (a ++ b)
  | _, _ => none

/-- The apostrophe, written by its code. -/
def apostrophe : Char := Char.ofNat 0x27

/-- The double quote, written by its code. -/
def doubleQuote : Char := Char.ofNat 0x22

/-- The tokens of a line; a comment begins at `;` (R95). -/
def lex : LexMode → List Char → Option (List Tok)
  | .code acc, [] => flushWord acc
  | .quoted _, [] => none
  | .quoted acc, c :: cs =>
    if c = doubleQuote then thenToks (some [.text acc.reverse]) (lex (.code []) cs) else lex (.quoted (c :: acc)) cs
  | .code acc, c :: cs =>
    if c = ';' then flushWord acc
    else if c = ' ' then thenToks (flushWord acc) (lex (.code []) cs)
    else if c = ',' then thenToks (flushWord acc) (thenToks (some [.comma]) (lex (.code []) cs))
    else if c = '[' then thenToks (flushWord acc) (thenToks (some [.openBracket]) (lex (.code []) cs))
    else if c = ']' then thenToks (flushWord acc) (thenToks (some [.closeBracket]) (lex (.code []) cs))
    else if c = doubleQuote then thenToks (flushWord acc) (lex (.quoted []) cs)
    else if c = apostrophe then
      match cs with
      | x :: q :: rest =>
        if q = apostrophe then thenToks (flushWord acc) (thenToks (some [.num x.toNat]) (lex (.code []) rest)) else none
      | _ => none
    else lex (.code (c :: acc)) cs

/-- The registers with one cell, by name (10_state.md R27). -/
def scalarRegisters : List (String × Nat) :=
  [("STATUS", 0x00), ("COUNT", 0x01), ("START", 0x02), ("END", 0x03), ("TRAVEL", 0x04), ("DIST", 0x05),
   ("PULSE_CNT", 0x06), ("LEVEL", 0x20), ("PWM_PERIOD", 0x21), ("PWM_DUTY", 0x22), ("PRESET_IDX", 0x23)]
  ++ [("TX_IDX", 0x3F), ("RX_IDX", 0x48), ("TX_DATA", 0x49), ("DISP_TAG", 0x54), ("DISP_MODE", 0x55),
   ("SCAN_IDX", 0x56), ("SEG", 0x57), ("DSEL", 0x58)]

/-- The registers with an index, by name: first number and how many numbers (10_state.md R27). -/
def indexedRegisters : List (String × Nat × Nat) :=
  [("FILT", 0x10, 4), ("FCOUNT", 0x14, 4), ("HEAD", 0x18, 4), ("PRESET", 0x28, 5), ("FRAME", 0x30, 7),
   ("TXBUF", 0x38, 7), ("RXBUF", 0x40, 8), ("DISP_DIGIT", 0x50, 4)]

/-- A register operand of RD: `name`, `name[i]`, `RING[ch][i]` or a number (R95; 10_state.md R27). -/
def registerNumber : List Tok → Option Nat
  | [.num n] => if n < 256 then some n else none
  | [.word w] => (scalarRegisters.find? (fun r => r.1.toList == w)).map (fun r => r.2)
  | [.word w, .openBracket, .num i, .closeBracket] =>
    match indexedRegisters.find? (fun r => r.1.toList == w) with
    | some r => if i < r.2.2 then some (r.2.1 + i) else none
    | none => none
  | [.word w, .openBracket, .num ch, .closeBracket, .openBracket, .num i, .closeBracket] =>
    if w = "RING".toList ∧ ch < 4 ∧ i < 16 then some (0x80 + 16 * ch + i) else none
  | _ => none

/-- A channel operand. -/
def channelOperand (n : Nat) : Option ChannelNo := if n < 4 then some (BitVec.ofNat 2 n) else none

/-- A 16-bit operand. -/
def wordOperand (n : Nat) : Option Word := if n < 2 ^ 16 then some (BitVec.ofNat 16 n) else none

/-- A byte operand. -/
def byteOperand (n : Nat) : Option Byte := if n < 2 ^ 8 then some (BitVec.ofNat 8 n) else none

/-- A mode operand. -/
def modeOperand (n : Nat) : Option Bool := if n = 0 then some false else if n = 1 then some true else none

/-- The operations without operands, by mnemonic (30_encoding.md R83). -/
def plainOperations : List (String × Instr) :=
  [("RESET", .reset), ("TICK", .tick), ("TRIGGER", .trigger), ("EDGE", .edge), ("DIST", .dist),
   ("PRESET_NEXT", .presetNext), ("TXARM", .txarm), ("TXEV", .txev), ("CONSUME", .consume), ("SCAN", .scan)]

/-- An operation with one channel operand. -/
def oneChannel (f : ChannelNo → Instr) (n : Nat) : Option (List Instr) := (channelOperand n).map (fun ch => [f ch])

/-- An operation or pseudo-operation with its operands (R95, R96). -/
def parseOperation (c : Config) (w : List Char) (args : List Tok) : Option (List Instr) :=
  if w = "RD".toList then (registerNumber args).bind (fun n => (byteOperand n).map (fun b => [.rd b]))
  else
    match args with
    | [] =>
      if w = "SEND".toList then some (sendOps c)
      else (plainOperations.find? (fun p => p.1.toList == w)).map (fun p => [p.2])
    | [.num a] =>
      if w = "PUSHD".toList then oneChannel .pushd a
      else if w = "LEVEL".toList then (wordOperand a).map (fun d => [.level d])
      else if w = "LEVELF".toList then oneChannel .levelf a
      else if w = "ENC".toList then (wordOperand a).map (fun v => [.enc false v])
      else if w = "ENCF".toList then oneChannel (.encf false) a
      else if w = "RXEV".toList then (byteOperand a).map (fun b => [.rxev b])
      else if w = "TICKS".toList then some (ticks a)
      else if w = "SCANS".toList then some (scans a)
      else if w = "TXEVS".toList then some (txevs a)
      else none
    | [.num a, .comma, .num b] =>
      if w = "PUSH".toList then (channelOperand a).bind (fun ch => (wordOperand b).map (fun v => [.push ch v]))
      else if w = "ENC".toList then (wordOperand a).bind (fun v => (modeOperand b).map (fun m => [.enc m v]))
      else if w = "ENCF".toList then (channelOperand a).bind (fun ch => (modeOperand b).map (fun m => [.encf m ch]))
      else if w = "MEASURE".toList then some (measureOps c a b)
      else none
    | [.text t] =>
      if w = "RXSTR".toList then (t.mapM (fun x => byteOperand x.toNat)).map rxBytes else none
    | _ => none

/-- The operations of one line of text; an empty line or a comment has none (R95, R96). -/
def parseLine (c : Config) (line : List Char) : Option (List Instr) :=
  match lex (.code []) line with
  | some [] => some []
  | some (.word w :: args) => parseOperation c w args
  | _ => none

/-- The command words of one line of text (R95). -/
def assemble (c : Config) (line : List Char) : Option (List CommandWord) :=
  (parseLine c line).map (fun l => l.map encode)

end Sys2Proof.Machine
end

