-- ==== Sys2Proof/Machine/TwoNode.lean ====
section
/-! DEFINITION. The two-node system: two blocks with no shared state, and the one-way serial wire between them
(60_exceptions.md R228, R229; log 17). -/

namespace Sys2Proof.Machine

/-- Two nodes and their wire. -/
structure Link where
  /-- The sensor node. -/
  sensor : State
  /-- The display node. -/
  display : State
  /-- Every byte the sensor node has put on the wire, oldest first. -/
  sent : List Byte
  /-- How many of them have left the wire. -/
  taken : Nat
  /-- Every byte the wire has given the display node, oldest first. -/
  delivered : List Byte
deriving DecidableEq, Repr

/-- What may happen next in the system (R229). -/
inductive LinkEvent where
  /-- The sensor node performs an operation. -/
  | sensor (x : Input)
  /-- The display node performs an operation of its own, which a receive event is not: the wire gives it those. -/
  | display (x : Input)
  /-- The oldest byte on the wire reaches the display node as an RXEV. -/
  | deliver
  /-- The oldest byte on the wire is lost; a lossy wire only. -/
  | drop
  /-- The oldest byte on the wire arrives as `b`; a lossy wire only. -/
  | corrupt (b : Byte)
deriving DecidableEq, Repr

/-- Two nodes right after reset, the wire empty. -/
def Link.initial (cs cd : Config) : Link where
  sensor := State.initial cs
  display := State.initial cd
  sent := []
  taken := 0
  delivered := []

/-- The wire after the sensor node became `t`: a byte it sent joins at the end (R229; 10_state.md R30 `tx_valid`). -/
def wireAfter (sent : List Byte) (t : State) : List Byte := if t.out.txValid then sent ++ [t.tx.data] else sent

/-- The byte of a receive event (45_transport.md R182). -/
def receivedByte (i : Instr) : Option Byte :=
  match i with
  | .rxev b => some b
  | .reset | .rd _ | .tick | .trigger | .edge | .dist | .push _ _ | .pushd _ | .level _ | .levelf _ | .presetNext | .enc _ _
  | .encf _ _ | .txarm | .txev | .consume | .scan => none

/-- Whether an input is a receive event, by its word or by its pin. The display node's receive pin is the end of the wire, so
in the system the wire alone gives it one (R229). -/
def isReceive (x : Input) : Bool :=
  match inputInstr x with
  | .ok i => (receivedByte i).isSome
  | .error _ => false

/-- The display node takes byte `b` from the wire. -/
def handOver (b : Byte) (l : Link) : Host.Outcome Link Fault Refusal :=
  match perform (.rxIn b) l.display with
  | .next t => .next { l with display := t, taken := l.taken + 1, delivered := l.delivered ++ [b] }
  | .fault f => .fault f
  | .refused r => .refused r

/-- One event of the system. With nothing on the wire a delivery is nothing, and so is a receive event that the wire does not
give; `lossy` lets the environment drop or corrupt bytes, which by default it does not (R229). -/
def linkStep (lossy : Bool) (e : LinkEvent) (l : Link) : Host.Outcome Link Fault Refusal :=
  match e with
  | .sensor x =>
    match perform x l.sensor with
    | .next t => .next { l with sensor := t, sent := wireAfter l.sent t }
    | .fault f => .fault f
    | .refused r => .refused r
  | .display x =>
    if isReceive x then .next l
    else
      match perform x l.display with
      | .next t => .next { l with display := t }
      | .fault f => .fault f
      | .refused r => .refused r
  | .deliver =>
    match l.sent[l.taken]? with
    | some b => handOver b l
    | none => .next l
  | .drop => .next (if lossy && decide (l.taken < l.sent.length) then { l with taken := l.taken + 1 } else l)
  | .corrupt b =>
    if lossy && decide (l.taken < l.sent.length) then handOver b l else .next l

/-- The events of a list in order. -/
def linkRun (lossy : Bool) : List LinkEvent → Link → Host.Outcome Link Fault Refusal
  | [], l => .next l
  | e :: rest, l =>
    match linkStep lossy e l with
    | .next l' => linkRun lossy rest l'
    | .fault f => .fault f
    | .refused r => .refused r

end Sys2Proof.Machine
end

