-- ==== Sys2Proof/Safety.lean ====
section
/-! DEFINITION. What a safe state is: the invariants of 10_state.md R37 with the ranges of R21 and R24; and the words the
statements use about RD. No operation faults, so a run is safe when every state of it meets the invariants. -/

namespace Sys2Proof.Machine

/-- The capture unit (R21, R24, R37 item 8): the counts are `TW` bits, the pulse is `trig`, no edge is taken during it. -/
structure CaptureInv (c : Config) (k : Capture) : Prop where
  count_lt : k.count.toNat < 2 ^ c.tw
  start_lt : k.start.toNat < 2 ^ c.tw
  end_lt : k.end_.toNat < 2 ^ c.tw
  travel_lt : k.travel.toNat < 2 ^ c.tw
  pulse_le : k.pulseCnt.toNat ≤ c.trigTicks
  trig_iff : k.trig = true ↔ 0 < k.pulseCnt.toNat
  trig_disarmed : k.trig = true → k.armed = false

/-- One channel (R37 item 1). -/
structure ChannelInv (c : Config) (k : Channel) : Prop where
  head_lt : k.head.toNat < c.n
  fcount_le : k.fcount.toNat ≤ c.n
  unprimed_head : k.fcount.toNat < c.n → k.head.toNat = k.fcount.toNat
  unprimed_zero : k.fcount.toNat < c.n → ∀ i, k.fcount.toNat ≤ i → i < c.n → memRead k.ring i = 0

/-- The filter unit (R37 items 1 and 2). -/
structure FilterInv (c : Config) (f : Filter) : Prop where
  dist_le : f.dist.toNat ≤ c.dmax
  chans : ∀ k ∈ f.chans, ChannelInv c k

/-- The alarm unit (R37 item 3; 43_alarm.md R155). -/
structure AlarmInv (c : Config) (a : Alarm) : Prop where
  level_le : a.level.toNat ≤ 5
  preset_le : a.presetIdx.toNat ≤ 4
  tone : c.tone[a.level.toNat]? = some ⟨a.pwmPeriod, a.pwmDuty⟩

/-- A frame as the encoder builds it (R37 item 10): digits, a count tag, a tag that is not the sentinel, the sentinel. -/
structure BuiltFrame (c : Config) (f : List Byte) : Prop where
  digits : ∀ i, i < 4 → 0x30 ≤ memRead f i ∧ memRead f i ≤ 0x39
  tag : 0x31 ≤ memRead f 4 ∧ memRead f 4 ≤ 0x34
  last : memRead f (c.frameLen - 1) = 0x2C
  only_last : ∀ i, i < c.frameLen - 1 → memRead f i ≠ 0x2C

/-- The frame register: as reset left it, or as the encoder built it (R33, R37 item 10). -/
def FrameInv (c : Config) (f : List Byte) : Prop := f = List.replicate c.frameLen 0 ∨ BuiltFrame c f

/-- The transmit side (R37 item 4). -/
structure TransmitInv (c : Config) (x : Transmit) : Prop where
  idx_le : x.idx.toNat ≤ c.frameLen
  sending : x.en = true → x.idx.toNat < c.frameLen

/-- The receive side (R37 items 5 and 6). -/
structure ReceiveInv (c : Config) (r : Receive) : Prop where
  idx_lt : r.idx.toNat < c.rxCap
  no_sentinel : sentinel ∉ r.buf
  ready_deaf : r.frameReady = true → r.en = false ∧ r.idx = 0

/-- The display unit (R24, R37 item 7). -/
structure DisplayInv (c : Config) (d : Display) : Prop where
  one_line : d.dsel = 0 ∨ d.dsel = 1 ∨ d.dsel = 2 ∨ d.dsel = 4 ∨ d.dsel = 8
  dark : d.dsel = 0 → d.seg = 0xFF
  scan_lt : activeCount c d ≠ 0 → d.scanIdx.toNat < activeCount c d

/-- The invariants of the block (10_state.md R37): every buffer has its cells, and every unit its ranges. -/
structure State.Inv (s : State) : Prop where
  memory : Memory.wf s = true
  capture : CaptureInv s.cfg s.cap
  filter : FilterInv s.cfg s.filter
  alarm : AlarmInv s.cfg s.alarm
  frame : FrameInv s.cfg s.frame
  transmit : TransmitInv s.cfg s.tx
  receive : ReceiveInv s.cfg s.rx
  display : DisplayInv s.cfg s.disp

/-- RD of the register number `n` returns `v` and changes nothing else (40_system.md R101). -/
def ReadsAs (s : State) (n : Nat) (v : Word) : Prop :=
  exec (.rd (BitVec.ofNat 8 n)) s = .next { s with out := { res := v, txValid := false } }

/-- The register numbers 10_state.md R27 gives a register under a configuration. -/
def AssignedNumber (c : Config) (n : Nat) : Prop :=
  n ≤ 0x06 ∨ (0x10 ≤ n ∧ n < 0x10 + c.nch) ∨ (0x14 ≤ n ∧ n < 0x14 + c.nch) ∨ (0x18 ≤ n ∧ n < 0x18 + c.nch)
    ∨ (0x20 ≤ n ∧ n ≤ 0x23) ∨ (0x28 ≤ n ∧ n ≤ 0x2C) ∨ (0x30 ≤ n ∧ n < 0x30 + c.frameLen)
    ∨ (0x38 ≤ n ∧ n < 0x38 + c.frameLen) ∨ n = 0x3F ∨ (0x40 ≤ n ∧ n < 0x40 + c.rxCap) ∨ n = 0x48 ∨ n = 0x49
    ∨ (0x50 ≤ n ∧ n ≤ 0x58) ∨ (∃ ch i, ch < c.nch ∧ i < c.n ∧ n = 0x80 + 16 * ch + i)

end Sys2Proof.Machine
end

