-- ==== Sys2Proof/Certificates/Slice0/Obligations.lean ====
section
/-! DEFINITION. The statements for the provers, one per obligation. Each docstring names the rule of spec/ it formalises.
A value that a rule marks as the spec's own decision (D<n>) is still the spec's; what is the model's choice says so. -/

open Sys2Proof Sys2Proof.Machine

/-! ## Encoding -/

/-- 30_encoding.md R80, R82, R83: the decoder reads back every operation the encoder writes, with every operand. -/
def Obligations.DecodeOfEncodeIsTheInstruction : Prop :=
  ∀ i : Instr, decode (encode i) = .ok i

/-- 30_encoding.md R85: a word decodes to an operation exactly when it agrees with that operation's canonical word on
`opc` and on the bits R83 names for it; the canonical word has every other bit 0. -/
def Obligations.IgnoredBitsDoNotMatter : Prop :=
  (∀ (w : CommandWord) (i : Instr), decode w = .ok i ↔ (w ^^^ encode i) &&& (0xFF000000 ||| i.operandMask) = 0)
  ∧ ∀ i : Instr, encode i &&& ~~~(0xFF000000 ||| i.operandMask) = 0

/-- 30_encoding.md R82, R84: the opcode map has 18 operations, and a word with any other `opc` decodes to nothing and is
refused by a step. That the model refuses it, where the hardware would ignore it, is R84's advice to a model and this
model's choice (log 7). -/
def Obligations.ReservedOpcodeIsRefused : Prop :=
  ∀ (s : State) (w : CommandWord) (rest : List Input),
    opcOf w ∉ ([0x00, 0x01, 0x10, 0x11, 0x12, 0x20, 0x21, 0x22, 0x30, 0x31, 0x32, 0x40, 0x41, 0x42, 0x43, 0x50, 0x51,
      0x60] : List Byte) →
    decode w = .error (.reservedOpcode (opcOf w))
    ∧ (s.cfg.Legal → s.inputs = .command w :: rest → step s = .refused (.reservedOpcode (opcOf w)))

/-- The words spec/ writes out for operations (30_encoding.md R95 and the encodings of files 40 to 46) decode to them. -/
def Obligations.WordsOfTheSpecDecode : Prop :=
  decode 0x00000000 = .ok .reset ∧ decode 0x01040000 = .ok (.rd 0x04) ∧ decode 0x10000000 = .ok .tick
  ∧ decode 0x21000064 = .ok (.push 0 100) ∧ decode 0x30000019 = .ok (.level 25)
  ∧ decode 0x400000F7 = .ok (.enc false 247) ∧ decode 0x408000F7 = .ok (.enc true 247)
  ∧ decode 0x41810000 = .ok (.encf true 1) ∧ decode 0x502C0000 = .ok (.rxev 0x2C) ∧ decode 0x60000000 = .ok .scan

/-- 30_encoding.md R95: the lines the rule writes out assemble to the words it gives. -/
def Obligations.LinesOfTheSpecAssemble : Prop :=
  assemble Config.standard "PUSH 0, 100".toList = some [0x21000064]
  ∧ assemble Config.standard "ENC 247".toList = some [0x400000F7]
  ∧ assemble Config.standard "ENC 247, 1".toList = some [0x408000F7]
  ∧ assemble Config.standard "RXEV ','".toList = some [0x502C0000]
  ∧ assemble Config.standard "RD TRAVEL".toList = some [0x01040000]

/-! ## The step -/

/-- 00_scope.md R13, R17; 30_encoding.md R80: a step under a legal configuration takes the oldest input and, when it is a
command word that decodes, is exactly `exec` of the decoded operation on the state without that input. -/
def Obligations.StepRunsTheDecodedInstruction : Prop :=
  ∀ (s : State) (w : CommandWord) (rest : List Input) (i : Instr),
    s.cfg.Legal → s.inputs = .command w :: rest → decode w = .ok i → step s = exec i { s with inputs := rest }

/-- 30_encoding.md R81: a pin starts the same transition as the command word of its operation, and so is `exec` of it. -/
def Obligations.PinsStartTheSameTransitions : Prop :=
  ∀ (s : State) (rest : List Input) (b : Byte), s.cfg.Legal →
    let pin := fun x : Input => step { s with inputs := x :: rest }
    let word := fun w : CommandWord => step { s with inputs := .command w :: rest }
    let run := fun i : Instr => exec i { s with inputs := rest }
    (pin .tickIn = word 0x10000000 ∧ pin .tickIn = run .tick)
    ∧ (pin .echoIn = word 0x12000000 ∧ pin .echoIn = run .edge)
    ∧ (pin (.rxIn b) = word ((0x50#8 ++ b) ++ 0#16) ∧ pin (.rxIn b) = run (.rxev b))
    ∧ (pin .txReady = word 0x43000000 ∧ pin .txReady = run .txev)
    ∧ (pin .rst = word 0x00000000 ∧ pin .rst = run .reset)

/-- What a step does when the environment has issued nothing is the MODEL's choice (log 6): everything holds and the
strobe `tx_valid` is low. 00_scope.md R17 says only that a run ends where the environment stops and that pins hold. -/
def Obligations.StepWithoutInputHolds : Prop :=
  ∀ s : State, s.inputs = [] → step s = .next { s with out := { res := s.out.res, txValid := false } }

/-- 00_scope.md R10: a configuration that breaks a constraint is refused: no operation is performed under it. -/
def Obligations.IllegalConfigurationIsRefused : Prop :=
  ∀ (s : State) (x : Input) (rest : List Input), s.inputs = x :: rest →
    ¬ ((1 ≤ s.cfg.trigTicks ∧ s.cfg.trigTicks ≤ 255) ∧ (1 ≤ s.cfg.tw ∧ s.cfg.tw ≤ 16) ∧ 1 ≤ s.cfg.div
      ∧ (1 ≤ s.cfg.n ∧ s.cfg.n ≤ 16) ∧ (1 ≤ s.cfg.nch ∧ s.cfg.nch ≤ 4) ∧ s.cfg.dmax < 2 ^ 16
      ∧ (s.cfg.modeTag[0] ≠ 0x2C ∧ s.cfg.modeTag[1] ≠ 0x2C)
      ∧ ((if s.cfg.hasModeTag then 6 else 5) ≤ s.cfg.rxCap ∧ s.cfg.rxCap ≤ 8) ∧ s.cfg.tone[0] = ⟨0, 0⟩) →
    step s = .refused .illegalConfig

/-- 00_scope.md R15: every operation is total and has exactly one next state; and the configuration, and what the
environment has still to issue, are not touched by it (10_state.md R20; 20_memory.md R74). -/
def Obligations.EveryOperationHasExactlyOneNextState : Prop :=
  ∀ (i : Instr) (s : State),
    (∃! t, exec i s = .next t) ∧ ∀ t, exec i s = .next t → t.cfg = s.cfg ∧ t.inputs = s.inputs

/-! ## Invariants -/

/-- 10_state.md R37 ("These hold after reset"): the reset state of every legal configuration meets the invariants, the
default configuration is legal, and the machine's reset state is its. -/
def Obligations.ResetMeetsTheInvariants : Prop :=
  (∀ c : Config, c.Legal → (State.initial c).Inv) ∧ Config.standard.Legal
  ∧ State.reset = State.initial Config.standard

/-- 10_state.md R37 ("and after every operation"): every step keeps the invariants. -/
def Obligations.StepKeepsTheInvariants : Prop :=
  ∀ s t : State, s.cfg.Legal → s.Inv → step s = .next t → t.Inv

/-- 10_state.md R25: each status flag changes only by the operations the table lists, and only in the direction it lists:
"None is written as a side effect by an operation other than those listed." -/
def Obligations.FlagsChangeOnlyAsListed : Prop :=
  ∀ (i : Instr) (s t : State), exec i s = .next t →
    (t.cap.complete ≠ s.cap.complete →
      (t.cap.complete = true ∧ i = .edge ∧ s.cap.lastEdge = true)
      ∨ (t.cap.complete = false ∧ (i = .trigger ∨ i = .reset)))
    ∧ (t.cap.armed ≠ s.cap.armed →
      (t.cap.armed = true ∧ i = .tick ∧ s.cap.trig = true) ∨ (t.cap.armed = false ∧ (i = .trigger ∨ i = .reset)))
    ∧ (t.cap.lastEdge ≠ s.cap.lastEdge →
      (t.cap.lastEdge = true ∧ i = .edge)
      ∨ (t.cap.lastEdge = false ∧ (i = .edge ∨ (i = .trigger ∧ s.cfg.trigClearsEdge = true) ∨ i = .reset)))
    ∧ (t.cap.trig ≠ s.cap.trig →
      (t.cap.trig = true ∧ i = .trigger) ∨ (t.cap.trig = false ∧ (i = .tick ∨ i = .reset)))
    ∧ (t.tx.en ≠ s.tx.en →
      (t.tx.en = true ∧ i = .txarm)
      ∨ (t.tx.en = false ∧ ((i = .txev ∧ s.tx.idx.toNat + 1 = s.cfg.frameLen) ∨ i = .reset)))
    ∧ (t.rx.en ≠ s.rx.en →
      (t.rx.en = true ∧ ((i = .consume ∧ s.rx.frameReady = true) ∨ i = .reset))
      ∨ (t.rx.en = false ∧ i = .rxev 0x2C))
    ∧ (t.rx.frameReady ≠ s.rx.frameReady →
      (t.rx.frameReady = true ∧ i = .rxev 0x2C) ∨ (t.rx.frameReady = false ∧ (i = .consume ∨ i = .reset)))

/-- The columns "written by" of 10_state.md R21, R22, R23, R28, R29 and R36: whatever else an operation does, these
registers and buffers change only by the operations listed. -/
def Obligations.RegistersChangeOnlyByTheirWriters : Prop :=
  ∀ (i : Instr) (s t : State), exec i s = .next t → i ≠ .reset →
    (i ≠ .tick → i ≠ .trigger → t.cap.count = s.cap.count ∧ t.cap.pulseCnt = s.cap.pulseCnt)
    ∧ (i ≠ .edge → t.cap.start = s.cap.start ∧ t.cap.end_ = s.cap.end_ ∧ t.cap.travel = s.cap.travel)
    ∧ (i ≠ .dist → t.filter.dist = s.filter.dist)
    ∧ ((∀ ch v, i ≠ .push ch v) → (∀ ch, i ≠ .pushd ch) → t.filter.chans = s.filter.chans)
    ∧ ((∀ d, i ≠ .level d) → (∀ ch, i ≠ .levelf ch) →
        t.alarm.level = s.alarm.level ∧ t.alarm.pwmPeriod = s.alarm.pwmPeriod ∧ t.alarm.pwmDuty = s.alarm.pwmDuty)
    ∧ (i ≠ .presetNext → t.alarm.presetIdx = s.alarm.presetIdx)
    ∧ ((∀ m v, i ≠ .enc m v) → (∀ m ch, i ≠ .encf m ch) → t.frame = s.frame)
    ∧ (i ≠ .txarm → t.tx.buf = s.tx.buf)
    ∧ (i ≠ .txarm → i ≠ .txev → t.tx.idx = s.tx.idx)
    ∧ (i ≠ .txev → t.tx.data = s.tx.data ∧ t.tx.wireOut = s.tx.wireOut)
    ∧ ((∀ b, i ≠ .rxev b) → t.rx.buf = s.rx.buf ∧ t.rx.idx = s.rx.idx)
    ∧ (i ≠ .consume → t.disp.digit = s.disp.digit ∧ t.disp.tag = s.disp.tag ∧ t.disp.mode = s.disp.mode)
    ∧ (i ≠ .scan → i ≠ .consume →
        t.disp.scanIdx = s.disp.scanIdx ∧ t.disp.seg = s.disp.seg ∧ t.disp.dsel = s.disp.dsel)

/-! ## System operations -/

/-- 40_system.md R100; 10_state.md R33; 70_reset_and_hazards.md R241: RESET, by its word or by the pin, from any state,
leaves exactly these values (the spec's own decision D32), empties `wire_out`, returns 0, and does not touch the
configuration. That it keeps the pending inputs (`t.inputs = s.inputs`) is the MODEL's deduction (log 14). -/
def Obligations.ResetLeavesTheResetValues : Prop :=
  encode .reset = 0x00000000
  ∧ (∀ (s : State) (rest : List Input), s.cfg.Legal → s.inputs = .rst :: rest →
      step s = exec .reset { s with inputs := rest })
  ∧ ∀ s : State, ∃ t, exec .reset s = .next t ∧ t.cfg = s.cfg ∧ t.inputs = s.inputs ∧ t.out = ⟨0, false⟩
    ∧ (t.cap.count = 0 ∧ t.cap.start = 0 ∧ t.cap.end_ = 0 ∧ t.cap.travel = 0 ∧ t.cap.pulseCnt = 0)
    ∧ (t.cap.complete = false ∧ t.cap.armed = false ∧ t.cap.lastEdge = false ∧ t.cap.trig = false)
    ∧ t.filter.dist = 0 ∧ t.filter.chans.length = s.cfg.nch
    ∧ (∀ k ∈ t.filter.chans, k.ring = List.replicate s.cfg.n 0 ∧ k.head = 0 ∧ k.fcount = 0 ∧ k.filt = 0)
    ∧ (t.alarm.level = 0 ∧ t.alarm.pwmPeriod = 0 ∧ t.alarm.pwmDuty = 0 ∧ t.alarm.presetIdx = 0)
    ∧ (t.frame = List.replicate s.cfg.frameLen 0 ∧ t.tx.buf = List.replicate s.cfg.frameLen 0 ∧ t.tx.data = 0)
    ∧ (t.tx.idx = 0 ∧ t.tx.en = false ∧ t.tx.wireOut = [])
    ∧ (t.rx.buf = List.replicate s.cfg.rxCap 0 ∧ t.rx.idx = 0 ∧ t.rx.en = true ∧ t.rx.frameReady = false)
    ∧ (t.disp.digit = #v[0, 0, 0, 0] ∧ t.disp.tag = 0 ∧ t.disp.mode = 0 ∧ t.disp.scanIdx = 0)
    ∧ (t.disp.seg = 0xFF ∧ t.disp.dsel = 0)
    ∧ ReadsAs t 0x00 0x0020

/-- 10_state.md R26: the bits of `STATUS`, which RD 0x00 returns, and its value after reset. -/
def Obligations.StatusWordHoldsTheSevenFlags : Prop :=
  (∀ s : State, ∃ w : Word, ReadsAs s 0x00 w
    ∧ w.getLsbD 0 = s.cap.complete ∧ w.getLsbD 1 = s.cap.armed ∧ w.getLsbD 2 = s.cap.lastEdge
    ∧ w.getLsbD 3 = s.cap.trig ∧ w.getLsbD 4 = s.tx.en ∧ w.getLsbD 5 = s.rx.en ∧ w.getLsbD 6 = s.rx.frameReady
    ∧ ∀ i, 7 ≤ i → w.getLsbD i = false)
  ∧ ∀ c : Config, ReadsAs (State.initial c) 0x00 0x0020

/-- 10_state.md R27; 40_system.md R101: RD by every register number returns the register, zero-extended, or 0 for a
reserved number, and changes nothing else. The preset view reads row `preset_idx` of the configuration, where R37 item 3
keeps that index in 0 to 4. -/
def Obligations.ReadReturnsTheNumberedRegister : Prop :=
  (∀ n : Byte, encode (.rd n) = (0x01#8 ++ n) ++ 0#16)
  ∧ ∀ s : State, s.cfg.Legal →
    ReadsAs s 0x00 (statusWord s)
    ∧ ReadsAs s 0x01 s.cap.count ∧ ReadsAs s 0x02 s.cap.start ∧ ReadsAs s 0x03 s.cap.end_
    ∧ ReadsAs s 0x04 s.cap.travel ∧ ReadsAs s 0x05 s.filter.dist ∧ ReadsAs s 0x06 (s.cap.pulseCnt.setWidth 16)
    ∧ (∀ ch, ch < s.cfg.nch →
        ReadsAs s (0x10 + ch) (s.chan ch).filt ∧ ReadsAs s (0x14 + ch) ((s.chan ch).fcount.setWidth 16)
        ∧ ReadsAs s (0x18 + ch) ((s.chan ch).head.setWidth 16)
        ∧ ∀ i, i < s.cfg.n → ReadsAs s (0x80 + 16 * ch + i) (memRead (s.chan ch).ring i))
    ∧ ReadsAs s 0x20 (s.alarm.level.setWidth 16) ∧ ReadsAs s 0x21 s.alarm.pwmPeriod
    ∧ ReadsAs s 0x22 s.alarm.pwmDuty ∧ ReadsAs s 0x23 (s.alarm.presetIdx.setWidth 16)
    ∧ (∀ (h : s.alarm.presetIdx.toNat < 5) (i : Nat) (hi : i < 5),
        ReadsAs s (0x28 + i) s.cfg.presetBank[s.alarm.presetIdx.toNat][i])
    ∧ (∀ i, i < s.cfg.frameLen →
        ReadsAs s (0x30 + i) ((memRead s.frame i).setWidth 16)
        ∧ ReadsAs s (0x38 + i) ((memRead s.tx.buf i).setWidth 16))
    ∧ ReadsAs s 0x3F (s.tx.idx.setWidth 16)
    ∧ (∀ i, i < s.cfg.rxCap → ReadsAs s (0x40 + i) ((memRead s.rx.buf i).setWidth 16))
    ∧ ReadsAs s 0x48 (s.rx.idx.setWidth 16) ∧ ReadsAs s 0x49 (s.tx.data.setWidth 16)
    ∧ (∀ (p : Nat) (hp : p < 4), ReadsAs s (0x50 + p) (s.disp.digit[p].setWidth 16))
    ∧ ReadsAs s 0x54 (s.disp.tag.setWidth 16) ∧ ReadsAs s 0x55 (s.disp.mode.setWidth 16)
    ∧ ReadsAs s 0x56 (s.disp.scanIdx.setWidth 16) ∧ ReadsAs s 0x57 (s.disp.seg.setWidth 16)
    ∧ ReadsAs s 0x58 (s.disp.dsel.setWidth 16)
    ∧ ∀ n, n < 256 → ¬ AssignedNumber s.cfg n → ReadsAs s n 0

/-! ## Capture unit -/

/-- 41_capture.md R110 (decision D5): TICK adds one to the counter modulo 2^`TW` and, while the pulse runs, counts it down;
the tick that brings it to 0 drops `trig` and arms the capture. R37 item 8 is the premise on `pulse_cnt`. -/
def Obligations.TickCountsAndRunsDownThePulse : Prop :=
  encode .tick = 0x10000000 ∧ inputInstr .tickIn = .ok .tick
  ∧ ∀ s : State, s.cfg.Legal → (s.cap.trig = true → 1 ≤ s.cap.pulseCnt.toNat) →
    ∃ t, exec .tick s = .next t
      ∧ t = { s with cap := t.cap, out := ⟨0, false⟩ }
      ∧ t.cap = { s.cap with
          count := t.cap.count, pulseCnt := t.cap.pulseCnt, trig := t.cap.trig, armed := t.cap.armed }
      ∧ t.cap.count.toNat = (s.cap.count.toNat + 1) % 2 ^ s.cfg.tw
      ∧ (s.cap.trig = false →
          t.cap.pulseCnt = s.cap.pulseCnt ∧ t.cap.trig = false ∧ t.cap.armed = s.cap.armed)
      ∧ (s.cap.trig = true →
          t.cap.pulseCnt.toNat = s.cap.pulseCnt.toNat - 1
          ∧ (s.cap.pulseCnt.toNat - 1 = 0 → t.cap.trig = false ∧ t.cap.armed = true)
          ∧ (s.cap.pulseCnt.toNat - 1 ≠ 0 → t.cap.trig = true ∧ t.cap.armed = s.cap.armed))

/-- 41_capture.md R111 (decision D7): TRIGGER clears the counter, raises the output for `TRIG_TICKS` ticks, disarms, clears
`complete`, and clears `last_edge` when `TRIG_CLEARS_EDGE`; `start`, `end`, `travel` stay. -/
def Obligations.TriggerStartsACycle : Prop :=
  encode .trigger = 0x11000000
  ∧ ∀ s : State, s.cfg.Legal →
    ∃ t, exec .trigger s = .next t
      ∧ t = { s with cap := t.cap, out := ⟨0, false⟩ }
      ∧ t.cap.count = 0 ∧ t.cap.trig = true ∧ t.cap.pulseCnt.toNat = s.cfg.trigTicks ∧ t.cap.armed = false
      ∧ t.cap.complete = false
      ∧ (s.cfg.trigClearsEdge = true → t.cap.lastEdge = false)
      ∧ (s.cfg.trigClearsEdge = false → t.cap.lastEdge = s.cap.lastEdge)
      ∧ t.cap.start = s.cap.start ∧ t.cap.end_ = s.cap.end_ ∧ t.cap.travel = s.cap.travel

/-- 41_capture.md R112: EDGE does nothing unless armed; taken as rising it latches `start`; taken as falling it latches
`end`, computes `travel` modulo 2^`TW`, clears `last_edge` and marks the cycle complete. -/
def Obligations.EdgeLatchesByTheFlagAlone : Prop :=
  encode .edge = 0x12000000 ∧ inputInstr .echoIn = .ok .edge
  ∧ ∀ s : State, s.cfg.Legal →
    ∃ t, exec .edge s = .next t
      ∧ t = { s with cap := t.cap, out := ⟨0, false⟩ }
      ∧ (s.cap.armed = false → t.cap = s.cap)
      ∧ (s.cap.armed = true → s.cap.lastEdge = false →
          t.cap = { s.cap with start := s.cap.count, lastEdge := true })
      ∧ (s.cap.armed = true → s.cap.lastEdge = true →
          t.cap = { s.cap with end_ := s.cap.count, travel := t.cap.travel, lastEdge := false, complete := true }
          ∧ (t.cap.travel.toNat : Int) = ((s.cap.count.toNat : Int) - s.cap.start.toNat) % 2 ^ s.cfg.tw)

/-- 41_capture.md R113: between a rising and a falling edge `k` ticks apart, `travel` is `(end − start) mod 2^TW`, which is
`k` modulo 2^`TW`, whatever the counter stood at: the true number of ticks when `k` is below 2^`TW`, also across a wrap. -/
def Obligations.TravelIsTheTicksBetweenTheEdges : Prop :=
  ∀ (s : State) (k : Nat), s.cfg.Legal → s.cap.count.toNat < 2 ^ s.cfg.tw →
    s.cap.armed = true → s.cap.lastEdge = false → s.cap.trig = false →
    ∃ t, runInstrs (.edge :: (ticks k ++ [.edge])) s = .next t
      ∧ t.cap.start = s.cap.count
      ∧ t.cap.end_.toNat = (s.cap.count.toNat + k) % 2 ^ s.cfg.tw
      ∧ (t.cap.travel.toNat : Int) = ((t.cap.end_.toNat : Int) - t.cap.start.toNat) % 2 ^ s.cfg.tw
      ∧ t.cap.travel.toNat = k % 2 ^ s.cfg.tw
      ∧ (k < 2 ^ s.cfg.tw → t.cap.travel.toNat = k)
      ∧ t.cap.complete = true ∧ t.cap.lastEdge = false

/-- From 41_capture.md R110 and R111 ("The pulse is exactly `TRIG_TICKS` ticks long"): after a TRIGGER and `k` ticks, `k`
up to `TRIG_TICKS`, the output is high exactly while `k` is below `TRIG_TICKS`, and the capture armed exactly at the end. -/
def Obligations.TriggerPulseLastsTrigTicks : Prop :=
  ∀ (s : State) (k : Nat), s.cfg.Legal → k ≤ s.cfg.trigTicks →
    ∃ t, runInstrs (.trigger :: ticks k) s = .next t
      ∧ (t.cap.trig = true ↔ k < s.cfg.trigTicks) ∧ (t.cap.armed = true ↔ k = s.cfg.trigTicks)
      ∧ t.cap.count.toNat = k % 2 ^ s.cfg.tw ∧ t.cap.pulseCnt.toNat = s.cfg.trigTicks - k
      ∧ t.cap.complete = false ∧ t.cap.travel = s.cap.travel

/-- From 30_encoding.md R96 and 41_capture.md R110 to R113: `MEASURE r, w` from ANY state. Where its TRIGGER leaves
`last_edge` at 0 it ends with the echo's length in `travel` and the cycle complete. Where `TRIG_CLEARS_EDGE` is false and
`last_edge` stands at 1, the echo's first edge is taken as falling against the stale `start`, and its second as rising
(R111's stale-start carryover). -/
def Obligations.MeasureGivesTheEchoLength : Prop :=
  ∀ (s : State) (r w : Nat), s.cfg.Legal →
    ∃ t, runInstrs (measureOps s.cfg r w) s = .next t
      ∧ t.cap.complete = true ∧ t.cap.armed = true ∧ t.cap.trig = false
      ∧ t.cap.count.toNat = (s.cfg.trigTicks + r + w) % 2 ^ s.cfg.tw
      ∧ (s.cfg.trigClearsEdge = true ∨ s.cap.lastEdge = false →
          t.cap.travel.toNat = w % 2 ^ s.cfg.tw
          ∧ t.cap.start.toNat = (s.cfg.trigTicks + r) % 2 ^ s.cfg.tw
          ∧ t.cap.end_.toNat = (s.cfg.trigTicks + r + w) % 2 ^ s.cfg.tw
          ∧ t.cap.lastEdge = false)
      ∧ (s.cfg.trigClearsEdge = false → s.cap.lastEdge = true →
          (t.cap.travel.toNat : Int) = ((s.cfg.trigTicks + r : Nat) - (s.cap.start.toNat : Int)) % 2 ^ s.cfg.tw
          ∧ t.cap.end_.toNat = (s.cfg.trigTicks + r) % 2 ^ s.cfg.tw
          ∧ t.cap.start.toNat = (s.cfg.trigTicks + r + w) % 2 ^ s.cfg.tw
          ∧ t.cap.lastEdge = true)
      ∧ t.filter = s.filter ∧ t.alarm = s.alarm ∧ t.frame = s.frame ∧ t.tx = s.tx ∧ t.rx = s.rx ∧ t.disp = s.disp

/-- From 41_capture.md R114. With no edge at all, whatever else is performed short of RESET, `travel` keeps its value and
`complete` never becomes 1; a TRIGGER among it leaves `complete` at 0. And after a TRIGGER that leaves `last_edge` at 0,
whatever is performed short of RESET with any edges while the pulse still runs (`a`) and at most one edge after that (`b`),
the one edge is at most a rising one: `complete` stays 0, `travel` is the stale value, and DIST converts it again. -/
def Obligations.MissingEchoKeepsTheStaleTravel : Prop :=
  (∀ (l : List Instr) (s t : State), (∀ i ∈ l, i ≠ .edge ∧ i ≠ .reset) → runInstrs l s = .next t →
    t.cap.travel = s.cap.travel ∧ (t.cap.complete = true → s.cap.complete = true)
    ∧ (.trigger ∈ l → t.cap.complete = false))
  ∧ ∀ (s : State) (a b : List Instr), s.cfg.Legal → (s.cfg.trigClearsEdge = true ∨ s.cap.lastEdge = false) →
    (∀ i ∈ a ++ b, i ≠ .reset) → a.count .tick < s.cfg.trigTicks → b.count .edge ≤ 1 →
    ∃ t u, runInstrs (.trigger :: (a ++ b)) s = .next t ∧ t.cap.complete = false ∧ t.cap.travel = s.cap.travel
      ∧ exec .dist t = .next u ∧ u.filter.dist.toNat = min (s.cap.travel.toNat / s.cfg.div) s.cfg.dmax

/-! ## Filter unit -/

/-- 42_filter.md R130: DIST divides the ticks, rounding toward zero, and clamps; `complete` and everything else stay. -/
def Obligations.DistConvertsAndClamps : Prop :=
  encode .dist = 0x20000000
  ∧ ∀ s : State, s.cfg.Legal →
    ∃ t, exec .dist s = .next t
      ∧ t = { s with filter := { s.filter with dist := t.filter.dist }, out := ⟨t.filter.dist, false⟩ }
      ∧ t.filter.dist.toNat = min (s.cap.travel.toNat / s.cfg.div) s.cfg.dmax

/-- 42_filter.md R131, R134: PUSH writes the sample at `head`, moves `head` and `fcount`, takes the mean of the samples
held (counted back from the one just written), and returns and stores it unless it is strictly closer than the band to
the value returned last time; every other channel and register stays. On a channel the configuration does not have,
nothing but `res <- 0`. -/
def Obligations.PushFiltersOneSample : Prop :=
  (∀ (ch : ChannelNo) (v : Word), encode (.push ch v) = (0x21#8 ++ (0#6 ++ ch)) ++ v)
  ∧ ∀ (s : State) (ch : ChannelNo) (sample : Word), s.cfg.Legal → s.Inv →
    (ch.toNat < s.cfg.nch →
      ∃ t, exec (.push ch sample) s = .next t ∧
        let k := s.chan ch.toNat
        let k' := t.chan ch.toNat
        let m := min (k.fcount.toNat + 1) s.cfg.n
        let a := ((List.range m).map (fun j => (memRead k'.ring ((k.head.toNat + s.cfg.n - j) % s.cfg.n)).toNat)).sum / m
        let b := deadband s.cfg ch k.filt (BitVec.ofNat 16 a)
        t = { s with filter := { s.filter with chans := t.filter.chans }, out := ⟨k'.filt, false⟩ }
        ∧ t.filter.chans.length = s.filter.chans.length
        ∧ (∀ c, c ≠ ch.toNat → t.chan c = s.chan c)
        ∧ memRead k'.ring k.head.toNat = sample
        ∧ (∀ i, i ≠ k.head.toNat → memRead k'.ring i = memRead k.ring i)
        ∧ k'.head.toNat = (k.head.toNat + 1) % s.cfg.n
        ∧ k'.fcount.toNat = m
        ∧ ((if k.filt.toNat ≤ a then a - k.filt.toNat else k.filt.toNat - a) < b → k'.filt = k.filt)
        ∧ (¬ (if k.filt.toNat ≤ a then a - k.filt.toNat else k.filt.toNat - a) < b → k'.filt.toNat = a))
    ∧ (¬ ch.toNat < s.cfg.nch → exec (.push ch sample) s = .next { s with out := ⟨0, false⟩ })

/-- 42_filter.md R132: PUSHD is PUSH of the register `dist`, which it does not change. -/
def Obligations.PushdIsPushOfDist : Prop :=
  (∀ ch : ChannelNo, encode (.pushd ch) = (0x22#8 ++ (0#6 ++ ch)) ++ 0#16)
  ∧ ∀ (s : State) (ch : ChannelNo),
    exec (.pushd ch) s = exec (.push ch s.filter.dist) s
    ∧ ∃ t, exec (.pushd ch) s = .next t ∧ t.filter.dist = s.filter.dist

/-- 42_filter.md R133: after every run since a reset, the next PUSH on a channel leaves its ring holding exactly the last
`min(count, N)` samples pushed on that channel; their sum is the sum of all `N` slots of the ring, and the push returns the
floor of their mean unless the dead-band holds the value returned before. Where in the ring those samples stand is the
model's reading of R131 (log 12). -/
def Obligations.MeanIsOfTheLastSamples : Prop :=
  ∀ (c : Config) (ch : ChannelNo) (l : List Instr) (x : Word), c.Legal → ch.toNat < c.nch → (∀ i ∈ l, i ≠ .reset) →
    ∃ t t', runInstrs l (State.initial c) = .next t ∧ exec (.push ch x) t = .next t' ∧
      let pushed := samplesPushed ch l (State.initial c)
      let p := (t.chan ch.toNat).filt
      let k' := t'.chan ch.toNat
      let m := min (pushed.length + 1) c.n
      let last := (x :: pushed.reverse).take m
      let a := (last.map BitVec.toNat).sum / m
      k'.fcount.toNat = m
      ∧ k'.head.toNat = (pushed.length + 1) % c.n
      ∧ heldSamples c.n k'.ring ((k'.head.toNat + c.n - 1) % c.n) k'.fcount.toNat = last
      ∧ (k'.ring.map BitVec.toNat).sum = (last.map BitVec.toNat).sum
      ∧ k'.filt.toNat =
          (if (if p.toNat ≤ a then a - p.toNat else p.toNat - a) < deadband c ch p (BitVec.ofNat 16 a) then p.toNat else a)
      ∧ t'.out.res = k'.filt

/-- From 42_filter.md R133 ("an implementation may compute it either way"): under the invariants, the sum PUSH divides, of
the samples held counted back from the newest, is the sum of all `N` slots of the ring. -/
def Obligations.SumOfTheHeldIsSumOfTheRing : Prop :=
  ∀ (s t : State) (ch : ChannelNo) (sample : Word), s.cfg.Legal → s.Inv → ch.toNat < s.cfg.nch →
    exec (.push ch sample) s = .next t →
    sumSamples (heldSamples s.cfg.n (t.chan ch.toNat).ring (s.chan ch.toNat).head.toNat (t.chan ch.toNat).fcount.toNat)
      = ((t.chan ch.toNat).ring.map BitVec.toNat).sum

/-- 42_filter.md R131, R132; 43_alarm.md R152; 44_frame_codec.md R167 (`ch` at or above `NCH`): no state changes and the
result is 0. -/
def Obligations.AbsentChannelDoesNothing : Prop :=
  ∀ (s : State) (ch : ChannelNo) (m : Bool), s.cfg.nch ≤ ch.toNat →
    exec (.pushd ch) s = .next { s with out := ⟨0, false⟩ }
    ∧ exec (.levelf ch) s = .next { s with out := ⟨0, false⟩ }
    ∧ exec (.encf m ch) s = .next { s with out := ⟨0, false⟩ }

/-- The OPEN parameter `DEADBAND` is held as a table (log 3). This says the form leaves nothing out: every function of the
channel, the previous value and the mean to the naturals (00_scope.md R9; decision D14) is some table's. -/
def Obligations.EveryDeadbandIsATable : Prop :=
  ∀ f : ChannelNo → Word → Word → Nat, ∃ tab : BandTable, ∀ ch p a, bandOf tab ch p a = f ch p a

/-! ## Alarm unit -/

/-- 43_alarm.md R150, R151, R155: LEVEL finds the first index of the active table that equals the distance, gives 5 minus
it, or 0 when there is none, and loads the tone pair of the level; level 0 silences. R37 item 3 keeps `preset_idx` in 0 to
4. -/
def Obligations.LevelIsTheFirstExactMatch : Prop :=
  (∀ d : Word, encode (.level d) = (0x30#8 ++ 0#8) ++ d)
  ∧ ∀ (s : State) (d : Word) (h : s.alarm.presetIdx.toNat < 5), s.cfg.Legal →
    ∃ t, exec (.level d) s = .next t ∧
      let T := s.cfg.presetBank[s.alarm.presetIdx.toNat]
      t = { s with
            alarm := { s.alarm with level := t.alarm.level, pwmPeriod := t.alarm.pwmPeriod, pwmDuty := t.alarm.pwmDuty },
            out := ⟨t.alarm.level.setWidth 16, false⟩ }
      ∧ (∀ i : Fin 5, T[i] = d → (∀ j : Fin 5, j < i → T[j] ≠ d) → t.alarm.level.toNat = 5 - i.val)
      ∧ ((∀ i : Fin 5, T[i] ≠ d) → t.alarm.level.toNat = 0 ∧ t.alarm.pwmPeriod = 0 ∧ t.alarm.pwmDuty = 0)
      ∧ s.cfg.tone[t.alarm.level.toNat]? = some ⟨t.alarm.pwmPeriod, t.alarm.pwmDuty⟩

/-- 43_alarm.md R152: LEVELF is LEVEL of the channel's filtered value; on a channel the configuration does not have,
nothing but `res <- 0`. -/
def Obligations.LevelfIsLevelOfTheFilteredValue : Prop :=
  (∀ ch : ChannelNo, encode (.levelf ch) = (0x31#8 ++ (0#6 ++ ch)) ++ 0#16)
  ∧ ∀ (s : State) (ch : ChannelNo),
    (ch.toNat < s.cfg.nch → exec (.levelf ch) s = exec (.level (s.chan ch.toNat).filt) s)
    ∧ (¬ ch.toNat < s.cfg.nch → exec (.levelf ch) s = .next { s with out := ⟨0, false⟩ })
    ∧ ∃ t, exec (.levelf ch) s = .next t

/-- 43_alarm.md R153: PRESET_NEXT adds one to the index modulo 5 and recomputes nothing. -/
def Obligations.PresetNextCyclesTheIndex : Prop :=
  encode .presetNext = 0x32000000
  ∧ ∀ s : State, ∃ t, exec .presetNext s = .next t
    ∧ t = { s with alarm := { s.alarm with presetIdx := t.alarm.presetIdx },
                   out := ⟨t.alarm.presetIdx.setWidth 16, false⟩ }
    ∧ t.alarm.presetIdx.toNat = (s.alarm.presetIdx.toNat + 1) % 5

/-! ## Frame codec -/

/-- 44_frame_codec.md R165; 30_encoding.md R87, R88: ENC writes the whole frame: four digits least significant first, the
count tag by the thresholds, the mode tag when there is one, the sentinel; it returns the count and touches nothing
else. -/
def Obligations.EncBuildsTheFrame : Prop :=
  (∀ (m : Bool) (v : Word), encode (.enc m v) = (0x40#8 ++ (BitVec.ofBool m ++ 0#7)) ++ v)
  ∧ ∀ (s : State) (m : Bool) (v : Word), ∃ t, exec (.enc m v) s = .next t ∧
    let d := fun k : Nat => BitVec.ofNat 8 (0x30 + v.toNat / 10 ^ k % 10)
    let c := if v.toNat > 999 then 4 else if v.toNat > 99 then 3 else if v.toNat > 9 then 2 else 1
    t = { s with frame := t.frame, out := ⟨BitVec.ofNat 16 c, false⟩ }
    ∧ (s.cfg.hasModeTag = false → t.frame = [d 0, d 1, d 2, d 3, BitVec.ofNat 8 (0x30 + c), 0x2C])
    ∧ (s.cfg.hasModeTag = true → t.frame =
        [d 0, d 1, d 2, d 3, BitVec.ofNat 8 (0x30 + c), if m then s.cfg.modeTag[1] else s.cfg.modeTag[0], 0x2C])

/-- 44_frame_codec.md R167: ENCF is ENC of the channel's filtered value; on a channel the configuration does not have,
nothing but `res <- 0`. -/
def Obligations.EncfIsEncOfTheFilteredValue : Prop :=
  (∀ (m : Bool) (ch : ChannelNo), encode (.encf m ch) = (0x41#8 ++ ((BitVec.ofBool m ++ 0#5) ++ ch)) ++ 0#16)
  ∧ ∀ (s : State) (m : Bool) (ch : ChannelNo),
    (ch.toNat < s.cfg.nch → exec (.encf m ch) s = exec (.enc m (s.chan ch.toNat).filt) s)
    ∧ (¬ ch.toNat < s.cfg.nch → exec (.encf m ch) s = .next { s with out := ⟨0, false⟩ })
    ∧ ∃ t, exec (.encf m ch) s = .next t

/-- 30_encoding.md R90: in a frame the encoder builds, the sentinel is the last byte and occurs nowhere else. -/
def Obligations.SentinelIsOnlyTheLastByte : Prop :=
  ∀ (s t : State) (m : Bool) (v : Word), s.cfg.Legal → exec (.enc m v) s = .next t →
    t.frame.length = s.cfg.frameLen
    ∧ ∀ i, i < s.cfg.frameLen → (memRead t.frame i = 0x2C ↔ i = s.cfg.frameLen - 1)

/-! ## Transport -/

/-- 45_transport.md R180: TXARM copies the frame into the transmit buffer and arms the send from index 0; it sends
nothing. -/
def Obligations.TxarmCopiesTheFrame : Prop :=
  encode .txarm = 0x42000000
  ∧ ∀ s : State, exec .txarm s =
    .next { s with tx := { s.tx with buf := s.frame, idx := 0, en := true }, out := ⟨0, false⟩ }

/-- 45_transport.md R181: TXEV sends the byte at `tx_idx`, moves the index and, with the last byte, clears the enable; with
nothing armed it does nothing. R37 item 4 is the premise on `tx_idx` while a send is armed. -/
def Obligations.TxevSendsTheNextByte : Prop :=
  encode .txev = 0x43000000 ∧ inputInstr .txReady = .ok .txev
  ∧ ∀ s : State, s.cfg.Legal →
    (s.tx.en = true → s.tx.idx.toNat < s.cfg.frameLen →
      ∃ t, exec .txev s = .next t ∧
        let b := memRead s.tx.buf s.tx.idx.toNat
        t = { s with tx := t.tx, out := ⟨0x0100 + b.setWidth 16, true⟩ }
        ∧ t.tx.wireOut = s.tx.wireOut ++ [b] ∧ t.tx.data = b ∧ t.tx.buf = s.tx.buf
        ∧ t.tx.idx.toNat = s.tx.idx.toNat + 1
        ∧ (t.tx.en = true ↔ s.tx.idx.toNat + 1 ≠ s.cfg.frameLen))
    ∧ (s.tx.en = false → exec .txev s = .next { s with out := ⟨0, false⟩ })

/-- From 20_memory.md R70 items 1 and 2 and 30_encoding.md R96: SEND, from any state whose frame has its cells, puts exactly
the frame on the wire, in index order, one byte per transmit event with its strobe, and leaves nothing armed. -/
def Obligations.SendEmitsTheWholeFrame : Prop :=
  ∀ s : State, s.cfg.Legal → s.frame.length = s.cfg.frameLen →
    (∃ t, runInstrs (sendOps s.cfg) s = .next t
      ∧ t = { s with tx := t.tx, out := t.out }
      ∧ t.tx.wireOut = s.tx.wireOut ++ s.frame ∧ t.tx.buf = s.frame
      ∧ t.tx.idx.toNat = s.cfg.frameLen ∧ t.tx.en = false)
    ∧ (observations (sendOps s.cfg) s).map (fun p => (p.resOut, p.txValid))
        = (0, false) :: s.frame.map (fun b => (0x0100 + b.setWidth 16, true))

/-- 45_transport.md R182, R184: RXEV stores a payload byte at `rx_idx` and moves the index on, or wraps it at `RX_CAP`; the
sentinel closes the frame and is not stored; while `rx_en` is 0 the byte is dropped. R37 item 5 is the premise on
`rx_idx`. -/
def Obligations.RxevStoresOrCloses : Prop :=
  (∀ b : Byte, encode (.rxev b) = (0x50#8 ++ b) ++ 0#16 ∧ inputInstr (.rxIn b) = .ok (.rxev b))
  ∧ ∀ (s : State) (b : Byte), s.cfg.Legal → s.rx.idx.toNat < s.cfg.rxCap → s.rx.buf.length = s.cfg.rxCap →
    ∃ t, exec (.rxev b) s = .next t
      ∧ t = { s with rx := t.rx, out := ⟨0, false⟩ }
      ∧ (s.rx.en = false → t.rx = s.rx)
      ∧ (s.rx.en = true → b = 0x2C → t.rx = { s.rx with idx := 0, frameReady := true, en := false })
      ∧ (s.rx.en = true → b ≠ 0x2C →
          t.rx = { s.rx with buf := t.rx.buf, idx := t.rx.idx }
          ∧ memRead t.rx.buf s.rx.idx.toNat = b
          ∧ (∀ i, i ≠ s.rx.idx.toNat → memRead t.rx.buf i = memRead s.rx.buf i)
          ∧ (s.rx.idx.toNat + 1 = s.cfg.rxCap → t.rx.idx.toNat = 0)
          ∧ (s.rx.idx.toNat + 1 ≠ s.cfg.rxCap → t.rx.idx.toNat = s.rx.idx.toNat + 1))

/-- From 45_transport.md R184 (source S6): a stream of payload bytes of any length, with no sentinel in it, leaves the
index where counting modulo `RX_CAP` puts it, raises no flag and keeps the receiver on; `RX_CAP` bytes from index 0 bring
it back to 0 with the bytes in the order they came. -/
def Obligations.OverrunWrapsSilently : Prop :=
  ∀ (s : State) (l : List Byte), s.cfg.Legal → s.rx.buf.length = s.cfg.rxCap → s.rx.idx.toNat < s.cfg.rxCap →
    s.rx.en = true → 0x2C ∉ l →
    ∃ t, runInstrs (rxBytes l) s = .next t
      ∧ t.rx.idx.toNat = (s.rx.idx.toNat + l.length) % s.cfg.rxCap
      ∧ t.rx.frameReady = s.rx.frameReady ∧ t.rx.en = true
      ∧ t = { s with rx := t.rx, out := t.out }
      ∧ (l.length = s.cfg.rxCap → s.rx.idx = 0 → t.rx.buf = l)

/-- 45_transport.md R183: CONSUME does nothing unless a frame is ready; then it copies the buffer to the display by
position, clears the flag, enables the receiver, restarts the scan and darkens the buses. -/
def Obligations.ConsumeHandsTheFrameOver : Prop :=
  encode .consume = 0x51000000
  ∧ ∀ s : State,
    (s.rx.frameReady = false → exec .consume s = .next { s with out := ⟨0, false⟩ })
    ∧ (s.rx.frameReady = true →
      ∃ t, exec .consume s = .next t
        ∧ t = { s with disp := t.disp, rx := { s.rx with frameReady := false, en := true }, out := ⟨1, false⟩ }
        ∧ (∀ (p : Nat) (h : p < 4), t.disp.digit[p] = memRead s.rx.buf p)
        ∧ t.disp.tag = memRead s.rx.buf 4
        ∧ (s.cfg.hasModeTag = true → t.disp.mode = memRead s.rx.buf 5)
        ∧ (s.cfg.hasModeTag = false → t.disp.mode = s.disp.mode)
        ∧ t.disp.scanIdx = 0 ∧ t.disp.dsel = 0 ∧ t.disp.seg = 0xFF)

/-- From 44_frame_codec.md R170: the frame one block builds for any value, given in order to the receiver of another whose
configuration agrees on the mode tag, then consumed, shows the value's count tag and its low four digits. -/
def Obligations.FrameRoundTrip : Prop :=
  ∀ (s r : State) (m : Bool) (v : Word), s.cfg.Legal → r.cfg.Legal → r.cfg.hasModeTag = s.cfg.hasModeTag →
    r.rx.buf.length = r.cfg.rxCap → r.rx.en = true → r.rx.idx = 0 →
    ∃ f t, exec (.enc m v) s = .next f ∧ runInstrs (rxBytes f.frame ++ [.consume]) r = .next t ∧
      let c := if v.toNat > 999 then 4 else if v.toNat > 99 then 3 else if v.toNat > 9 then 2 else 1
      t.disp.tag = BitVec.ofNat 8 (0x30 + c)
      ∧ (∀ (p : Nat) (h : p < 4), t.disp.digit[p] = BitVec.ofNat 8 (0x30 + v.toNat / 10 ^ p % 10))
      ∧ (r.cfg.modeTag = s.cfg.modeTag → activeCount r.cfg t.disp = c)
      ∧ t.disp.scanIdx = 0 ∧ t.rx.en = true ∧ t.rx.frameReady = false ∧ t.rx.idx = 0 ∧ t.out.res = 1

/-- From 45_transport.md R185: the transmit operations read and write nothing of the receive side and the display, and the
reverse: replacing the one side wholesale leaves what the other's operations do unchanged. -/
def Obligations.DirectionsAreIndependent : Prop :=
  ∀ (s : State) (b : Byte) (r : Receive) (d : Display) (f : List Byte) (x : Transmit),
    (∀ i, i = .txarm ∨ i = .txev →
      ∃ t, exec i s = .next t ∧ exec i { s with rx := r, disp := d } = .next { t with rx := r, disp := d })
    ∧ (∀ i, i = .rxev b ∨ i = .consume →
      ∃ t, exec i s = .next t ∧ exec i { s with frame := f, tx := x } = .next { t with frame := f, tx := x })

/-- 60_exceptions.md R217: an event whose enable is 0 is lost and leaves no trace; one performed leaves nothing pending:
there is no state but the registers for it to wait in, so the same event meets the same enable afresh. -/
def Obligations.DisabledEventLeavesNoTrace : Prop :=
  ∀ (s : State) (b : Byte),
    (s.cap.armed = false → exec .edge s = .next { s with out := ⟨0, false⟩ })
    ∧ (s.tx.en = false → exec .txev s = .next { s with out := ⟨0, false⟩ })
    ∧ (s.rx.en = false → exec (.rxev b) s = .next { s with out := ⟨0, false⟩ })

/-! ## Display unit -/

/-- 46_display.md R201: the active count is `disp_tag − 0x30` for a recognised tag (and, with a mode tag, a recognised mode),
else 0. -/
def Obligations.ActiveCountIsReadFromTheTags : Prop :=
  ∀ (c : Config) (d : Display),
    (d.tag ∈ ([0x31, 0x32, 0x33, 0x34] : List Byte) →
      (c.hasModeTag = true → d.mode = c.modeTag[0] ∨ d.mode = c.modeTag[1]) →
      activeCount c d = d.tag.toNat - 0x30)
    ∧ (d.tag ∉ ([0x31, 0x32, 0x33, 0x34] : List Byte) → activeCount c d = 0)
    ∧ (c.hasModeTag = true → d.mode ≠ c.modeTag[0] → d.mode ≠ c.modeTag[1] → activeCount c d = 0)

/-- 46_display.md R202; 30_encoding.md R92: the pattern of a digit byte is the complement of its mask, any other byte is
dark. -/
def Obligations.SegmentPatternOfAByte : Prop :=
  ∀ (c : Config) (b : Byte),
    (∀ (k : Nat) (h : k < 10), b = BitVec.ofNat 8 (0x30 + k) → segpat c b = ~~~ c.segmap[k])
    ∧ ((∀ k, k < 10 → b ≠ BitVec.ofNat 8 (0x30 + k)) → segpat c b = 0xFF)

/-- 46_display.md R200: SCAN lights the next active place on its own line and moves on modulo the active count, or is dark
when the count is 0; the result is the new bus values. -/
def Obligations.ScanLightsTheNextPlace : Prop :=
  encode .scan = 0x60000000
  ∧ ∀ s : State, ∃ t, exec .scan s = .next t ∧
    let c := activeCount s.cfg s.disp
    let p := if s.disp.scanIdx.toNat < c then s.disp.scanIdx.toNat else 0
    t = { s with
          disp := { s.disp with scanIdx := t.disp.scanIdx, seg := t.disp.seg, dsel := t.disp.dsel },
          out := ⟨BitVec.ofNat 16 (t.disp.dsel.toNat * 256 + t.disp.seg.toNat), false⟩ }
    ∧ (c = 0 → t.disp.dsel = 0 ∧ t.disp.seg = 0xFF ∧ t.disp.scanIdx = 0)
    ∧ (c ≠ 0 → ∃ h : p < 4,
        t.disp.dsel.toNat = 2 ^ p ∧ t.disp.seg = segpat s.cfg s.disp.digit[p]
        ∧ t.disp.scanIdx.toNat = (p + 1) % c)

/-- From 46_display.md R204: a pass of `c` SCANs from place 0 asserts lines 0 to `c − 1` once each, in ascending order, each
with the pattern of its own digit, and ends at place 0; with no active place every SCAN is dark. -/
def Obligations.ScanPassStrobesEachLineOnce : Prop :=
  ∀ s : State,
    (1 ≤ activeCount s.cfg s.disp → s.disp.scanIdx = 0 →
      (observations (scans (activeCount s.cfg s.disp)) s).map (fun p => (p.dselOut, p.segOut))
          = (List.range (activeCount s.cfg s.disp)).map
              (fun p => (BitVec.ofNat 4 (2 ^ p), segpat s.cfg (s.disp.digit[p]?.getD 0)))
      ∧ ∃ t, runInstrs (scans (activeCount s.cfg s.disp)) s = .next t ∧ t.disp.scanIdx = 0
        ∧ t.disp.digit = s.disp.digit ∧ t.disp.tag = s.disp.tag)
    ∧ (activeCount s.cfg s.disp = 0 → ∀ n,
      (observations (scans n) s).map (fun p => (p.dselOut, p.segOut)) = List.replicate n (0, 0xFF))

/-! ## Two nodes -/

/-- From 60_exceptions.md R229 and 10_state.md R36: over a lossless wire, from two reset nodes and whatever happens in
whatever order, the bytes on the wire are those the sensor node sent (its `wire_out`, with what stood in it before a RESET
of the sensor before that), and the display node performed the receive events of exactly those taken from the wire, in the
same order, each once, none before it was sent. Each delivery is RXEV of the oldest byte on the wire. That a receive event
the wire does not give is no event of the system, and that bytes outlive a RESET of the sensor, is the form of the model's
wire (log 17). -/
def Obligations.WireDeliversInOrder : Prop :=
  (∀ (cs cd : Config) (es : List LinkEvent) (l : Link), linkRun false es (Link.initial cs cd) = .next l →
    l.taken ≤ l.sent.length ∧ l.delivered = l.sent.take l.taken
    ∧ (∃ before, l.sent = before ++ l.sensor.tx.wireOut)
    ∧ ((∀ x, .sensor x ∈ es → inputInstr x ≠ .ok .reset) → l.sent = l.sensor.tx.wireOut)
    ∧ ∃ ops, runInstrs ops (State.initial cd) = .next l.display ∧ ops.filterMap receivedByte = l.delivered)
  ∧ (∀ (l : Link) (b : Byte), l.display.cfg.Legal → l.sent[l.taken]? = some b →
      ∃ t, exec (.rxev b) l.display = .next t
        ∧ linkStep false .deliver l
          = .next { l with display := t, taken := l.taken + 1, delivered := l.delivered ++ [b] })
  ∧ ∀ (l : Link) (x : Input) (b : Byte), inputInstr x = .ok (.rxev b) → linkStep false (.display x) l = .next l

/-- From 60_exceptions.md R228, R229 and 44_frame_codec.md R170: a value encoded and sent by the sensor node, carried over
the wire and consumed by the display node, is what the display node holds to show. The form of the wire is the model's
(log 17). -/
def Obligations.ValueCrossesTheWire : Prop :=
  ∀ (cs cd : Config) (m : Bool) (v : Word), cs.Legal → cd.Legal → cd.hasModeTag = cs.hasModeTag →
    ∃ l, linkRun false
        ([.sensor (.command (encode (.enc m v))), .sensor (.command (encode .txarm))]
          ++ List.replicate cs.frameLen (.sensor .txReady) ++ List.replicate cs.frameLen .deliver
          ++ [.display (.command (encode .consume))]) (Link.initial cs cd) = .next l
      ∧ l.sensor.tx.wireOut = l.sensor.frame ∧ l.delivered = l.sensor.frame
      ∧ l.display.disp.tag
          = BitVec.ofNat 8 (0x30 + if v.toNat > 999 then 4 else if v.toNat > 99 then 3 else if v.toNat > 9 then 2 else 1)
      ∧ ∀ (p : Nat) (h : p < 4), l.display.disp.digit[p] = BitVec.ofNat 8 (0x30 + v.toNat / 10 ^ p % 10)

/-- From 60_exceptions.md R229 ("By default every byte is delivered"): from any state of the system, as many deliveries as
there are bytes on the lossless wire give the display node all of them, in order, as RXEVs, and leave the wire empty; with
nothing on the wire a delivery is nothing. The form of the wire is the model's (log 17). -/
def Obligations.EnoughDeliveriesEmptyTheWire : Prop :=
  ∀ l : Link, l.display.cfg.Legal → l.taken ≤ l.sent.length →
    ∃ t, runInstrs (rxBytes (l.sent.drop l.taken)) l.display = .next t
      ∧ ∀ more, linkRun false (List.replicate (l.sent.length - l.taken + more) .deliver) l
        = .next { l with display := t, taken := l.sent.length, delivered := l.delivered ++ l.sent.drop l.taken }

/-- From 60_exceptions.md R229 ("lets the environment drop or corrupt bytes"): over a lossy wire too, from two reset nodes
and whatever happens in whatever order, the display node performs the receive events of the bytes delivered and no other,
at most one for each byte taken; where none was corrupted they are the sensor node's bytes, some left out. The form of the
wire is the model's (log 17). -/
def Obligations.LossyWireAddsNoByte : Prop :=
  ∀ (cs cd : Config) (es : List LinkEvent) (l : Link), linkRun true es (Link.initial cs cd) = .next l →
    l.taken ≤ l.sent.length ∧ l.delivered.length ≤ l.taken
    ∧ (∃ before, l.sent = before ++ l.sensor.tx.wireOut)
    ∧ (∃ ops, runInstrs ops (State.initial cd) = .next l.display ∧ ops.filterMap receivedByte = l.delivered)
    ∧ ((∀ b, .corrupt b ∉ es) → l.delivered.Sublist (l.sent.take l.taken))
end

