-- ==== Sys2Proof/Laws/State.lean ====
section
/-! SUPPORT. One lemma per field per named update of the state, so that no later proof unfolds a record update. -/

namespace Sys2Proof.Machine

section Answer
variable (s : State) (r : Word)

@[simp] theorem State.answer_cfg : (s.answer r).cfg = s.cfg := rfl
@[simp] theorem State.answer_inputs : (s.answer r).inputs = s.inputs := rfl
@[simp] theorem State.answer_out : (s.answer r).out = ⟨r, false⟩ := rfl
@[simp] theorem State.answer_cap : (s.answer r).cap = s.cap := rfl
@[simp] theorem State.answer_filter : (s.answer r).filter = s.filter := rfl
@[simp] theorem State.answer_alarm : (s.answer r).alarm = s.alarm := rfl
@[simp] theorem State.answer_frame : (s.answer r).frame = s.frame := rfl
@[simp] theorem State.answer_tx : (s.answer r).tx = s.tx := rfl
@[simp] theorem State.answer_rx : (s.answer r).rx = s.rx := rfl
@[simp] theorem State.answer_disp : (s.answer r).disp = s.disp := rfl
@[simp] theorem State.answer_chan (ch : Nat) : (s.answer r).chan ch = s.chan ch := rfl

@[simp] theorem State.answerSent_cfg : (s.answerSent r).cfg = s.cfg := rfl
@[simp] theorem State.answerSent_inputs : (s.answerSent r).inputs = s.inputs := rfl
@[simp] theorem State.answerSent_out : (s.answerSent r).out = ⟨r, true⟩ := rfl
@[simp] theorem State.answerSent_cap : (s.answerSent r).cap = s.cap := rfl
@[simp] theorem State.answerSent_filter : (s.answerSent r).filter = s.filter := rfl
@[simp] theorem State.answerSent_alarm : (s.answerSent r).alarm = s.alarm := rfl
@[simp] theorem State.answerSent_frame : (s.answerSent r).frame = s.frame := rfl
@[simp] theorem State.answerSent_tx : (s.answerSent r).tx = s.tx := rfl
@[simp] theorem State.answerSent_rx : (s.answerSent r).rx = s.rx := rfl
@[simp] theorem State.answerSent_disp : (s.answerSent r).disp = s.disp := rfl

end Answer

section SetChan
variable (s : State) (ch : Nat) (k : Channel)

@[simp] theorem State.setChan_cfg : (s.setChan ch k).cfg = s.cfg := rfl
@[simp] theorem State.setChan_inputs : (s.setChan ch k).inputs = s.inputs := rfl
@[simp] theorem State.setChan_out : (s.setChan ch k).out = s.out := rfl
@[simp] theorem State.setChan_cap : (s.setChan ch k).cap = s.cap := rfl
@[simp] theorem State.setChan_dist : (s.setChan ch k).filter.dist = s.filter.dist := rfl
@[simp] theorem State.setChan_chans : (s.setChan ch k).filter.chans = s.filter.chans.set ch k := rfl
@[simp] theorem State.setChan_alarm : (s.setChan ch k).alarm = s.alarm := rfl
@[simp] theorem State.setChan_frame : (s.setChan ch k).frame = s.frame := rfl
@[simp] theorem State.setChan_tx : (s.setChan ch k).tx = s.tx := rfl
@[simp] theorem State.setChan_rx : (s.setChan ch k).rx = s.rx := rfl
@[simp] theorem State.setChan_disp : (s.setChan ch k).disp = s.disp := rfl

/-- The channel written reads back. -/
theorem State.chan_setChan_same (h : ch < s.filter.chans.length) : (s.setChan ch k).chan ch = k := by
  simp [State.chan, List.getD_eq_getElem?_getD, h]

/-- Every other channel reads as before. -/
theorem State.chan_setChan_ne {ch' : Nat} (h : ch' ≠ ch) : (s.setChan ch k).chan ch' = s.chan ch' := by
  simp [State.chan, List.getD_eq_getElem?_getD, List.getElem?_set_ne (Ne.symm h)]

end SetChan

section Idle
variable (s : State)

@[simp] theorem idle_cfg : (idle s).cfg = s.cfg := rfl
@[simp] theorem idle_inputs : (idle s).inputs = s.inputs := rfl
@[simp] theorem idle_res : (idle s).out.res = s.out.res := rfl
@[simp] theorem idle_txValid : (idle s).out.txValid = false := rfl
@[simp] theorem idle_cap : (idle s).cap = s.cap := rfl
@[simp] theorem idle_filter : (idle s).filter = s.filter := rfl
@[simp] theorem idle_alarm : (idle s).alarm = s.alarm := rfl
@[simp] theorem idle_frame : (idle s).frame = s.frame := rfl
@[simp] theorem idle_tx : (idle s).tx = s.tx := rfl
@[simp] theorem idle_rx : (idle s).rx = s.rx := rfl
@[simp] theorem idle_disp : (idle s).disp = s.disp := rfl

end Idle

section Initial
variable (c : Config)

@[simp] theorem State.initial_cfg : (State.initial c).cfg = c := rfl
@[simp] theorem State.initial_inputs : (State.initial c).inputs = [] := rfl
@[simp] theorem State.initial_out : (State.initial c).out = ⟨0, false⟩ := rfl
@[simp] theorem State.initial_chans :
    (State.initial c).filter.chans = List.replicate c.nch (Channel.initial c) := rfl
@[simp] theorem State.initial_frame : (State.initial c).frame = List.replicate c.frameLen 0 := rfl
@[simp] theorem State.initial_tx_buf : (State.initial c).tx.buf = List.replicate c.frameLen 0 := rfl
@[simp] theorem State.initial_rx_buf : (State.initial c).rx.buf = List.replicate c.rxCap 0 := rfl
@[simp] theorem State.initial_wire : (State.initial c).tx.wireOut = [] := rfl

/-- Every channel is as reset leaves it. -/
@[simp] theorem State.initial_chan (ch : Nat) : (State.initial c).chan ch = Channel.initial c := by
  simp only [State.chan, State.initial_chans, State.initial_cfg, List.getD_eq_getElem?_getD, List.getElem?_replicate]
  split <;> rfl

end Initial

section WithFetchWord
variable (s : State) (nbits w : Nat)

@[simp] theorem State.withFetchWord_cfg : (s.withFetchWord nbits w).cfg = s.cfg := rfl
@[simp] theorem State.withFetchWord_inputs :
    (s.withFetchWord nbits w).inputs = wordInput nbits w :: s.inputs := rfl

end WithFetchWord

end Sys2Proof.Machine
end

