-- ==== Sys2Proof/Laws/Ops.lean ====
section
/-! SUPPORT. One lemma for each shared operation that says what it can do; later proofs cite these and do not unfold. -/

namespace Sys2Proof.Machine

section Buffers
variable {k : Nat} (buf : List (BitVec k)) (i j : Nat) (v : BitVec k)

@[simp] theorem length_memWrite : (memWrite buf i v).length = buf.length := by simp [memWrite]

theorem memRead_memWrite_same (h : i < buf.length) : memRead (memWrite buf i v) i = v := by
  simp [memRead, memWrite, List.getD_eq_getElem?_getD, h]

theorem memRead_memWrite_ne (h : j ≠ i) : memRead (memWrite buf i v) j = memRead buf j := by
  simp [memRead, memWrite, List.getD_eq_getElem?_getD, List.getElem?_set_ne (Ne.symm h)]

theorem memRead_replicate_zero (n : Nat) : memRead (List.replicate n (0 : BitVec k)) i = 0 := by
  simp only [memRead, List.getD_eq_getElem?_getD, List.getElem?_replicate]
  split <;> rfl

/-- A cell read in range is a cell of the buffer. -/
theorem memRead_mem (h : i < buf.length) : memRead buf i ∈ buf := by
  simp [memRead, List.getD_eq_getElem?_getD, h]

end Buffers

/-! ## The counter's modulus -/

section Modulus
variable {c : Config} (h : c.tw ≤ 16) (v w : Word)
include h

theorem two_pow_tw_le : 2 ^ c.tw ≤ 2 ^ 16 := Nat.pow_le_pow_right (by decide) h

theorem truncTW_toNat : (truncTW c v).toNat = v.toNat % 2 ^ c.tw := by
  have h1 : v.toNat % 2 ^ c.tw < 2 ^ c.tw := Nat.mod_lt _ (Nat.two_pow_pos _)
  have h2 := two_pow_tw_le h
  simp only [truncTW, BitVec.toNat_ofNat]
  exact Nat.mod_eq_of_lt (by omega)

theorem truncTW_lt : (truncTW c v).toNat < 2 ^ c.tw := by
  rw [truncTW_toNat h]; exact Nat.mod_lt _ (Nat.two_pow_pos _)

/-- The counter counts modulo 2^`TW`, also where its 16 bits wrap. -/
theorem truncTW_succ : (truncTW c (v + 1)).toNat = (v.toNat + 1) % 2 ^ c.tw := by
  have h3 : 2 ^ c.tw ∣ 2 ^ 16 := Nat.pow_dvd_pow 2 h
  rw [truncTW_toNat h, BitVec.toNat_add]
  exact Nat.mod_mod_of_dvd _ h3

/-- A difference modulo 2^`TW` is the difference of the naturals modulo 2^`TW`. -/
theorem truncTW_sub : ((truncTW c (v - w)).toNat : Int) = ((v.toNat : Int) - w.toNat) % 2 ^ c.tw := by
  have h3 : (2 ^ c.tw : Int) ∣ 65536 := by simpa using pow_dvd_pow (2 : Int) h
  have hw := w.isLt
  have e : ((2 ^ 16 - w.toNat + v.toNat : Nat) : Int) = (v.toNat - w.toNat) + 65536 := by omega
  rw [truncTW_toNat h, BitVec.toNat_sub, Int.natCast_mod, Int.natCast_mod, e]
  push_cast
  rw [Int.emod_emod_of_dvd _ h3, Int.add_emod, Int.emod_eq_zero_of_dvd h3, add_zero, Int.emod_emod]

end Modulus

/-! ## Samples -/

theorem sumSamples_le (l : List Word) : sumSamples l ≤ l.length * 65535 := by
  induction l with
  | nil => simp [sumSamples]
  | cons a l ih =>
    have := a.isLt
    simp only [sumSamples, List.map_cons, List.sum_cons, List.length_cons] at ih ⊢
    omega

@[simp] theorem length_heldSamples (n : Nat) (ring : List Word) (last k : Nat) :
    (heldSamples n ring last k).length = k := by simp [heldSamples]

theorem heldAfter_pos {c : Config} (hn : 1 ≤ c.n) (k : Channel) : 1 ≤ heldAfter c k := by
  simp only [heldAfter]; omega

/-- A mean never exceeds the largest sample (47_common_laws.md R270). -/
theorem meanAfter_lt (c : Config) (k : Channel) (sample : Word) : meanAfter c k sample < 2 ^ 16 := by
  have h := sumSamples_le
    (heldSamples c.n (memWrite k.ring k.head.toNat sample) k.head.toNat (heldAfter c k))
  rw [length_heldSamples] at h
  have : meanAfter c k sample ≤ 65535 := Nat.div_le_of_le_mul h
  omega

/-- What the dead-band returns (42_filter.md R134). -/
theorem applyDeadband_cases (c : Config) (ch : ChannelNo) (p a : Word) :
    (absDiff a.toNat p.toNat < deadband c ch p a ∧ applyDeadband c ch p a = p)
    ∨ (¬ absDiff a.toNat p.toNat < deadband c ch p a ∧ applyDeadband c ch p a = a) := by
  unfold applyDeadband
  split
  · exact .inl ⟨‹_›, rfl⟩
  · exact .inr ⟨‹_›, rfl⟩

section Push
variable (c : Config) (ch : ChannelNo) (k : Channel) (sample : Word)

theorem pushChannel_ring : (pushChannel c ch k sample).ring = memWrite k.ring k.head.toNat sample := rfl

theorem pushChannel_filt : (pushChannel c ch k sample).filt
    = applyDeadband c ch k.filt (BitVec.ofNat 16 (meanAfter c k sample)) := rfl

theorem pushChannel_head (h : 1 ≤ c.n) (h' : c.n ≤ 16) :
    (pushChannel c ch k sample).head.toNat = (k.head.toNat + 1) % c.n := by
  have : (k.head.toNat + 1) % c.n < c.n := Nat.mod_lt _ h
  simp only [pushChannel, BitVec.toNat_ofNat]
  exact Nat.mod_eq_of_lt (by omega)

theorem pushChannel_fcount (h' : c.n ≤ 16) : (pushChannel c ch k sample).fcount.toNat = heldAfter c k := by
  simp only [pushChannel, BitVec.toNat_ofNat]
  exact Nat.mod_eq_of_lt (by simp only [heldAfter]; omega)

end Push

/-- What a push does to the state, all of it. -/
theorem pushSample_cases (ch : ChannelNo) (sample : Word) (s : State) :
    (ch.toNat < s.cfg.nch ∧ pushSample ch sample s
      = (s.setChan ch.toNat (pushChannel s.cfg ch (s.chan ch.toNat) sample)).answer
          (pushChannel s.cfg ch (s.chan ch.toNat) sample).filt)
    ∨ (¬ ch.toNat < s.cfg.nch ∧ pushSample ch sample s = s.answer 0) := by
  unfold pushSample
  split
  · exact .inl ⟨‹_›, rfl⟩
  · exact .inr ⟨‹_›, rfl⟩

/-! ## Levels -/

/-- The level is at most 5. -/
theorem levelFor_le (T : Vector Word 5) (d : Word) : levelFor T d ≤ 5 := by
  simp only [levelFor, List.foldl_cons, List.foldl_nil]
  split <;> split <;> split <;> split <;> split <;> omega

/-- The first match wins (43_alarm.md R150, R151). -/
theorem levelFor_match (T : Vector Word 5) (d : Word) (i : Fin 5) (h : T[i] = d)
    (hj : ∀ j : Fin 5, j < i → T[j] ≠ d) : levelFor T d = 5 - i.val := by
  have h0 := hj 0
  have h1 := hj 1
  have h2 := hj 2
  have h3 := hj 3
  fin_cases i <;> simp_all [levelFor]

/-- No match is level 0 (43_alarm.md R150). -/
theorem levelFor_none (T : Vector Word 5) (d : Word) (h : ∀ i : Fin 5, T[i] ≠ d) : levelFor T d = 0 := by
  have h0 := h 0
  have h1 := h 1
  have h2 := h 2
  have h3 := h 3
  have h4 := h 4
  simp_all [levelFor]

/-! ## Frames -/

theorem digitWalk_four (v : Nat) : digitWalk 4 v =
    [BitVec.ofNat 8 (0x30 + v % 10), BitVec.ofNat 8 (0x30 + v / 10 % 10), BitVec.ofNat 8 (0x30 + v / 10 / 10 % 10),
      BitVec.ofNat 8 (0x30 + v / 10 / 10 / 10 % 10)] := rfl

theorem digitCount_range (v : Nat) : 1 ≤ digitCount v ∧ digitCount v ≤ 4 := by
  unfold digitCount
  split
  · decide
  · split
    · decide
    · split <;> decide

@[simp] theorem length_frameOf (c : Config) (m : Bool) (v : Word) : (frameOf c m v).length = c.frameLen := by
  simp only [frameOf, Config.frameLen, digitWalk_four]
  cases c.hasModeTag <;> rfl

theorem frameLen_range (c : Config) : 6 ≤ c.frameLen ∧ c.frameLen ≤ 7 := by
  simp only [Config.frameLen]
  split <;> decide

/-! ## The active count -/

theorem activeCount_le (c : Config) (d : Display) : activeCount c d ≤ 4 := by
  unfold activeCount
  split
  · rename_i h
    obtain ⟨h1, h2, -⟩ := h
    bv_omega
  · omega

/-! ## Operations and runs -/

/-- Every operation answers a next state (00_scope.md R15). -/
theorem exec_isNext (i : Instr) (s : State) : ∃ t, exec i s = .next t := by
  cases i <;> exact ⟨_, rfl⟩

theorem runInstrs_cons {i : Instr} {l : List Instr} {s t : State} (h : exec i s = .next t) :
    runInstrs (i :: l) s = runInstrs l t := by simp only [runInstrs, h]

theorem runInstrs_append {l l' : List Instr} {s t : State} (h : runInstrs l s = .next t) :
    runInstrs (l ++ l') s = runInstrs l' t := by
  induction l generalizing s with
  | nil => simp only [runInstrs, Host.Outcome.next.injEq] at h; subst h; rfl
  | cons i l ih =>
    obtain ⟨u, hu⟩ := exec_isNext i s
    rw [runInstrs_cons hu] at h
    rw [List.cons_append, runInstrs_cons hu, ih h]

theorem observations_cons {i : Instr} {l : List Instr} {s t : State} (h : exec i s = .next t) :
    observations (i :: l) s = t.pins :: observations l t := by simp only [observations, h]

/-- An invariant that every operation of a list keeps is kept by the run. -/
theorem runInstrs_keeps {P : State → Prop} {l : List Instr}
    (h : ∀ i ∈ l, ∀ s t, P s → exec i s = .next t → P t) {s t : State} (hs : P s) (hr : runInstrs l s = .next t) :
    P t := by
  induction l generalizing s with
  | nil => simp only [runInstrs, Host.Outcome.next.injEq] at hr; exact hr ▸ hs
  | cons i l ih =>
    obtain ⟨u, hu⟩ := exec_isNext i s
    rw [runInstrs_cons hu] at hr
    exact ih (fun j hj => h j (List.mem_cons_of_mem _ hj)) (h i List.mem_cons_self s u hs hu) hr

/-- What a step can do: nothing, or one operation of the oldest input under a legal configuration. -/
theorem step_cases {s t : State} (h : step s = .next t) :
    (s.inputs = [] ∧ t = idle s)
    ∨ ∃ x rest i, s.inputs = x :: rest ∧ s.cfg.Legal ∧ inputInstr x = .ok i
        ∧ exec i { s with inputs := rest } = .next t := by
  unfold step at h
  split at h
  · next hi => exact .inl ⟨hi, (Host.Outcome.next.inj h).symm⟩
  · next x rest hi =>
    unfold perform at h
    split at h
    · next hl =>
      split at h
      · next i hx => exact .inr ⟨x, rest, i, hi, hl, hx, h⟩
      · cases h
    · cases h

end Sys2Proof.Machine
end

