-- ==== Sys2Proof/Laws/Memory.lean ====
section
/-! SUPPORT. The canonical form of the block's memory, `Memory.wf`: reset has it and every operation keeps it
(20_memory.md R60). -/

namespace Sys2Proof.Machine

/-- What the form says. -/
theorem Memory.wf_iff (s : State) : Memory.wf s = true ↔
    s.filter.chans.length = s.cfg.nch ∧ (∀ k ∈ s.filter.chans, k.ring.length = s.cfg.n)
    ∧ s.frame.length = s.cfg.frameLen ∧ s.tx.buf.length = s.cfg.frameLen ∧ s.rx.buf.length = s.cfg.rxCap := by
  simp [Memory.wf, and_assoc]

theorem Memory.wf_initial (c : Config) : Memory.wf (State.initial c) = true := by
  rw [Memory.wf_iff]
  simp only [State.initial_chans, State.initial_frame, State.initial_tx_buf, State.initial_rx_buf, State.initial_cfg,
    List.length_replicate, true_and, and_true]
  intro k hk
  rw [List.eq_of_mem_replicate hk]
  simp [Channel.initial]

theorem Memory.wf_reset : Memory.wf State.reset = true := Memory.wf_initial _

/-- A channel that exists is one of the list. -/
theorem State.chan_mem {s : State} {ch : Nat} (h : ch < s.filter.chans.length) : s.chan ch ∈ s.filter.chans := by
  simp [State.chan, List.getD_eq_getElem?_getD, h]

/-- The form reads the configuration and the buffers alone. -/
theorem Memory.wf_congr {s t : State} (hc : t.cfg = s.cfg) (hf : t.filter.chans = s.filter.chans)
    (hg : t.frame = s.frame) (hx : t.tx.buf = s.tx.buf) (hr : t.rx.buf = s.rx.buf) :
    Memory.wf t = Memory.wf s := by simp only [Memory.wf, hc, hf, hg, hx, hr]

theorem Memory.wf_answer (s : State) (r : Word) : Memory.wf (s.answer r) = Memory.wf s := rfl

theorem Memory.wf_answerSent (s : State) (r : Word) : Memory.wf (s.answerSent r) = Memory.wf s := rfl

theorem Memory.wf_pushSample {s : State} (h : Memory.wf s = true) (ch : ChannelNo) (v : Word) :
    Memory.wf (pushSample ch v s) = true := by
  rcases pushSample_cases ch v s with ⟨hc, e⟩ | ⟨-, e⟩ <;> rw [e, Memory.wf_answer]
  · rw [Memory.wf_iff] at h ⊢
    obtain ⟨h1, h2, h3, h4, h5⟩ := h
    refine ⟨by simp [h1], fun k hk => ?_, h3, h4, h5⟩
    rw [State.setChan_chans] at hk
    rcases List.mem_or_eq_of_mem_set hk with hk | rfl
    · exact h2 k hk
    · rw [pushChannel_ring, length_memWrite]
      exact h2 _ (State.chan_mem (by omega))
  · exact h

theorem Memory.wf_buildFrame {s : State} (h : Memory.wf s = true) (m : Bool) (v : Word) :
    Memory.wf (buildFrame m v s) = true := by
  rw [Memory.wf_iff] at h ⊢
  obtain ⟨h1, h2, -, h4, h5⟩ := h
  exact ⟨h1, h2, length_frameOf _ _ _, h4, h5⟩

theorem Memory.wf_receive {s : State} (h : Memory.wf s = true) (b : Byte) :
    Memory.wf { s with rx := receiveByte s.cfg b s.rx } = true := by
  rw [Memory.wf_iff] at h ⊢
  obtain ⟨h1, h2, h3, h4, h5⟩ := h
  refine ⟨h1, h2, h3, h4, ?_⟩
  simp only [receiveByte]
  split
  · split
    · exact h5
    · simp [storeByte, h5]
  · exact h5

/-- Every operation keeps every buffer's cells. -/
theorem Memory.wf_exec {i : Instr} {s t : State} (h : Memory.wf s = true) (e : exec i s = .next t) :
    Memory.wf t = true := by
  cases i
  all_goals injection e with e; subst e
  case reset => exact Memory.wf_initial s.cfg
  case rd => exact h
  case tick => exact h
  case trigger => exact h
  case edge => exact h
  case dist => exact h
  case push ch v => exact Memory.wf_pushSample h ch v
  case pushd ch => exact Memory.wf_pushSample h ch _
  case level => exact h
  case levelf ch => split <;> exact h
  case presetNext => exact h
  case enc m v => exact Memory.wf_buildFrame h m v
  case encf m ch =>
    split
    · exact Memory.wf_buildFrame h m _
    · exact h
  case txarm =>
    rw [Memory.wf_answer]
    rw [Memory.wf_iff] at h ⊢
    obtain ⟨h1, h2, h3, -, h5⟩ := h
    exact ⟨h1, h2, h3, h3, h5⟩
  case txev => split <;> exact h
  case rxev b => exact Memory.wf_receive h b
  case consume => split <;> exact h
  case scan => exact h

end Sys2Proof.Machine
end

