-- ==== Sys2Proof/Laws/PerInstr.lean ====
section
/-! SUPPORT. Per operation: the canonical command word has the opcode of 30_encoding.md R82 and the operand fields of R83
in the places of R80. -/

namespace Sys2Proof.Laws.CanonicalFields

/-- The three fields of the canonical word (R80). -/
def Statement (i : Instr) : Prop :=
  opcOf (encode i) = i.opcode ∧ selOf (encode i) = i.sel ∧ immOf (encode i) = i.imm

/-- One bit of a word put together from its fields. -/
theorem bit_of_parts (o s : Byte) (m : Word) (j : Nat) :
    (((o ++ s) ++ m : CommandWord)).getLsbD j
      = if j < 16 then m.getLsbD j else if j - 16 < 8 then s.getLsbD (j - 16) else o.getLsbD (j - 16 - 8) := by
  have h := BitVec.getLsbD_append (x := o ++ s) (y := m) (i := j)
  have h' := BitVec.getLsbD_append (x := o) (y := s) (i := j - 16)
  rw [h'] at h
  exact h

/-- The fields of a word put together from its fields. -/
theorem fields_of_parts (o s : Byte) (m : Word) :
    opcOf ((o ++ s) ++ m) = o ∧ selOf ((o ++ s) ++ m) = s ∧ immOf ((o ++ s) ++ m) = m := by
  refine ⟨BitVec.eq_of_getLsbD_eq fun j hj => ?_, BitVec.eq_of_getLsbD_eq fun j hj => ?_,
    BitVec.eq_of_getLsbD_eq fun j hj => ?_⟩
  · rw [opcOf, BitVec.getLsbD_extractLsb', bit_of_parts, if_neg (by omega), if_neg (by omega)]
    rw [show 24 + j - 16 - 8 = j by omega, decide_eq_true hj, Bool.true_and]
  · rw [selOf, BitVec.getLsbD_extractLsb', bit_of_parts, if_neg (by omega), if_pos (by omega)]
    rw [show 16 + j - 16 = j by omega, decide_eq_true hj, Bool.true_and]
  · rw [immOf, BitVec.getLsbD_extractLsb', bit_of_parts, if_pos (by omega), Nat.zero_add, decide_eq_true hj,
      Bool.true_and]

theorem reset : Statement .reset := fields_of_parts _ _ _
theorem rd (reg : Byte) : Statement (.rd reg) := fields_of_parts _ _ _
theorem tick : Statement .tick := fields_of_parts _ _ _
theorem trigger : Statement .trigger := fields_of_parts _ _ _
theorem edge : Statement .edge := fields_of_parts _ _ _
theorem dist : Statement .dist := fields_of_parts _ _ _
theorem push (ch : ChannelNo) (sample : Word) : Statement (.push ch sample) := fields_of_parts _ _ _
theorem pushd (ch : ChannelNo) : Statement (.pushd ch) := fields_of_parts _ _ _
theorem level (distance : Word) : Statement (.level distance) := fields_of_parts _ _ _
theorem levelf (ch : ChannelNo) : Statement (.levelf ch) := fields_of_parts _ _ _
theorem presetNext : Statement .presetNext := fields_of_parts _ _ _
theorem enc (m : Bool) (value : Word) : Statement (.enc m value) := fields_of_parts _ _ _
theorem encf (m : Bool) (ch : ChannelNo) : Statement (.encf m ch) := fields_of_parts _ _ _
theorem txarm : Statement .txarm := fields_of_parts _ _ _
theorem txev : Statement .txev := fields_of_parts _ _ _
theorem rxev (byte : Byte) : Statement (.rxev byte) := fields_of_parts _ _ _
theorem consume : Statement .consume := fields_of_parts _ _ _
theorem scan : Statement .scan := fields_of_parts _ _ _

end Sys2Proof.Laws.CanonicalFields
end

