-- ==== Sys2Proof/Laws/TwoNode.lean ====
section
/-! SUPPORT. What an event of the two-node system can do, said once (60_exceptions.md R229), and what an operation does to the
wire. -/

namespace Sys2Proof.Machine

/-- Performing an input is one operation under a legal configuration. -/
theorem perform_cases {x : Input} {s t : State} (h : perform x s = .next t) :
    ∃ i, s.cfg.Legal ∧ inputInstr x = .ok i ∧ exec i s = .next t := by
  unfold perform at h
  split at h
  · next hl =>
    split at h
    · next i hx => exact ⟨i, hl, hx, h⟩
    · cases h
  · cases h

/-- An operation other than RESET adds to `wire_out` exactly the byte it strobes, if any (10_state.md R30, R36). -/
theorem exec_wireOut {i : Instr} {s t : State} (hi : i ≠ .reset) (h : exec i s = .next t) :
    t.tx.wireOut = wireAfter s.tx.wireOut t := by
  cases i
  all_goals injection h with h; subst h
  case reset => exact absurd rfl hi
  case txev => split <;> rfl
  case push ch v => rcases pushSample_cases ch v s with ⟨-, e⟩ | ⟨-, e⟩ <;> rw [e] <;> rfl
  case pushd ch => rcases pushSample_cases ch s.filter.dist s with ⟨-, e⟩ | ⟨-, e⟩ <;> rw [e] <;> rfl
  all_goals first
    | rfl
    | (split <;> rfl)

/-- RESET empties `wire_out` and strobes nothing. -/
theorem exec_reset_wire {s t : State} (h : exec .reset s = .next t) :
    t.tx.wireOut = [] ∧ ∀ sent, wireAfter sent t = sent := by
  injection h with h
  subst h
  exact ⟨rfl, fun _ => rfl⟩

/-- The byte handed over is received. -/
theorem handOver_cases {b : Byte} {l l' : Link} (h : handOver b l = .next l') :
    ∃ t, l.display.cfg.Legal ∧ exec (.rxev b) l.display = .next t
      ∧ l' = { l with display := t, taken := l.taken + 1, delivered := l.delivered ++ [b] } := by
  unfold handOver at h
  split at h
  · next t ht =>
    obtain ⟨i, hl, hi, e⟩ := perform_cases ht
    obtain rfl : .rxev b = i := Except.ok.inj hi
    exact ⟨t, hl, e, (Host.Outcome.next.inj h).symm⟩
  · cases h
  · cases h

/-- What an event can do: nothing; an operation of the sensor node; an operation of the display node that is no receive
event; the oldest byte on the wire handed over, or on a lossy wire another byte in its place; or, on a lossy wire, lost. -/
theorem linkStep_cases {lossy : Bool} {e : LinkEvent} {l l' : Link} (h : linkStep lossy e l = .next l') :
    l' = l
    ∨ (∃ x i t, e = .sensor x ∧ inputInstr x = .ok i ∧ exec i l.sensor = .next t
        ∧ l' = { l with sensor := t, sent := wireAfter l.sent t })
    ∨ (∃ x i t, e = .display x ∧ inputInstr x = .ok i ∧ receivedByte i = none ∧ exec i l.display = .next t
        ∧ l' = { l with display := t })
    ∨ (∃ b t, l.taken < l.sent.length ∧ exec (.rxev b) l.display = .next t
        ∧ l' = { l with display := t, taken := l.taken + 1, delivered := l.delivered ++ [b] }
        ∧ (e = .deliver ∧ l.sent[l.taken]? = some b ∨ lossy = true ∧ e = .corrupt b))
    ∨ (lossy = true ∧ e = .drop ∧ l.taken < l.sent.length ∧ l' = { l with taken := l.taken + 1 }) := by
  cases e with
  | sensor x =>
    simp only [linkStep] at h
    split at h
    · next t ht =>
      obtain ⟨i, -, hi, e⟩ := perform_cases ht
      exact .inr (.inl ⟨x, i, t, rfl, hi, e, (Host.Outcome.next.inj h).symm⟩)
    · cases h
    · cases h
  | display x =>
    simp only [linkStep] at h
    split at h
    · exact .inl (Host.Outcome.next.inj h).symm
    · next hx =>
      split at h
      · next t ht =>
        obtain ⟨i, -, hi, e⟩ := perform_cases ht
        exact .inr (.inr (.inl ⟨x, i, t, rfl, hi, by simpa [isReceive, hi] using hx, e, (Host.Outcome.next.inj h).symm⟩))
      · cases h
      · cases h
  | deliver =>
    simp only [linkStep] at h
    split at h
    · next b hb =>
      obtain ⟨t, -, e, hl'⟩ := handOver_cases h
      exact .inr (.inr (.inr (.inl ⟨b, t, (List.getElem?_eq_some_iff.1 hb).1, e, hl', .inl ⟨rfl, hb⟩⟩)))
    · exact .inl (Host.Outcome.next.inj h).symm
  | drop =>
    have h := (Host.Outcome.next.inj h).symm
    split at h
    · next hc =>
      simp only [Bool.and_eq_true, decide_eq_true_eq] at hc
      exact .inr (.inr (.inr (.inr ⟨hc.1, rfl, hc.2, h⟩)))
    · exact .inl h
  | corrupt b =>
    simp only [linkStep] at h
    split at h
    · next hc =>
      simp only [Bool.and_eq_true, decide_eq_true_eq] at hc
      obtain ⟨t, -, e, hl'⟩ := handOver_cases h
      exact .inr (.inr (.inr (.inl ⟨b, t, hc.2, e, hl', .inr ⟨hc.1, rfl⟩⟩)))
    · exact .inl (Host.Outcome.next.inj h).symm

/-- A property that every event keeps is kept by the run. -/
theorem linkRun_keeps {P : Link → Prop} {lossy : Bool} {es : List LinkEvent}
    (h : ∀ e ∈ es, ∀ l l', P l → linkStep lossy e l = .next l' → P l') {l l' : Link} (hl : P l)
    (hr : linkRun lossy es l = .next l') : P l' := by
  induction es generalizing l with
  | nil => exact Host.Outcome.next.inj hr ▸ hl
  | cons e es ih =>
    unfold linkRun at hr
    split at hr
    · next u hu =>
      exact ih (fun e he => h e (List.mem_cons_of_mem _ he)) (h e List.mem_cons_self l u hl hu) hr
    · cases hr
    · cases hr

end Sys2Proof.Machine
end

