-- ==== Sys2Proof/Tests/Slice0.lean ====
section
/-! SUPPORT. The model's own tests. Words are written out from 30_encoding.md R80, R82, R83; expected results are the
vectors of 95_test_vectors.md named beside them, or follow from the rule named. -/

namespace Sys2Proof.Tests

open Sys2Proof.Machine

/-! ## Configurations and states -/

/-- CFG-T of 95_test_vectors.md, with V-A2's table as bank 2. -/
def cfgT : Config where
  tw := 16
  trigTicks := 10
  trigClearsEdge := true
  div := 58
  dmax := 400
  n := 10
  nch := 4
  deadband := { rows := [⟨0, 0, 0xFFFF, 0, 99, 2⟩, ⟨1, 0, 0xFFFF, 0, 99, 2⟩, ⟨2, 0, 0xFFFF, 0, 99, 2⟩,
    ⟨3, 0, 0xFFFF, 0, 99, 2⟩], otherwise := 5 }
  presetBank := #v[#v[5, 25, 60, 100, 220], #v[1, 2, 3, 4, 6], #v[60, 25, 60, 5, 5], #v[7, 7, 7, 7, 7], #v[9, 8, 7, 6, 5]]
  tone := #v[⟨0, 0⟩, ⟨1000, 500⟩, ⟨2000, 1000⟩, ⟨3000, 1500⟩, ⟨4000, 2000⟩, ⟨5000, 2500⟩]
  hasModeTag := false
  modeTag := #v[0x30, 0x31]
  rxCap := 6
  segmap := #v[0x3F, 0x06, 0x5B, 0x4F, 0x66, 0x6D, 0x7D, 0x07, 0x7F, 0x6F]
  dwellTicks := 0

/-- CFG-B: a band of 3 everywhere. -/
def cfgB : Config := { cfgT with deadband := ⟨[], 3⟩ }

/-- CFG-M: with a mode tag. -/
def cfgM : Config := { cfgT with hasModeTag := true, rxCap := 7 }

/-- A configuration at the ends of R10's ranges: the least of everything, and one channel. -/
def cfgLow : Config :=
  { cfgT with tw := 1, trigTicks := 1, trigClearsEdge := false, div := 1, dmax := 0, n := 1, nch := 1, rxCap := 5 }

/-- A configuration at the other ends of R10's ranges. -/
def cfgHigh : Config := { cfgM with tw := 16, trigTicks := 255, dmax := 65535, n := 16, rxCap := 8 }

/-- The reset state of a configuration. -/
def st (c : Config) : State := State.initial c

/-- A state with its capture unit replaced. -/
def withCap (c : Config) (k : Capture) : State := { st c with cap := k }

/-- A capture unit with the counters and flags given, the rest as reset leaves it. -/
def capOf (count start : Word) (pulse : Byte) (armed lastEdge trig : Bool) : Capture :=
  { count := count, start := start, end_ := 0, travel := 0, pulseCnt := pulse, complete := false, armed := armed,
    lastEdge := lastEdge, trig := trig }

/-- A state with channel `ch` replaced. -/
def withChan (c : Config) (ch : Nat) (k : Channel) : State := (st c).setChan ch k

/-- A state with a display digit buffer and a tag. -/
def withDisp (c : Config) (digits : Vector Byte 4) (tag : Byte) (idx : BitVec 2) : State :=
  { st c with disp := { digit := digits, tag := tag, mode := 0x31, scanIdx := idx, seg := 0xFF, dsel := 0 } }

/-- A state with its receive side replaced. -/
def withRx (c : Config) (buf : List Byte) (idx : BitVec 4) (en ready : Bool) : State :=
  { st c with rx := { buf := buf, idx := idx, en := en, frameReady := ready } }

/-- A state with its transmit side replaced. -/
def withTx (c : Config) (buf : List Byte) (idx : BitVec 3) (en : Bool) : State :=
  { st c with tx := { buf := buf, idx := idx, en := en, data := 0, wireOut := [] } }

/-- A state with inputs issued. -/
def withInputs (c : Config) (l : List Input) : State := { st c with inputs := l }

/-- What `f` says of the next state, if there is one. -/
def after {α : Type} (o : Host.Outcome State Fault Refusal) (f : State → α) : Option α :=
  match o with
  | .next t => some (f t)
  | .fault _ => none
  | .refused _ => none

/-- The refusal, if it is one. -/
def refusal (o : Host.Outcome State Fault Refusal) : Option Refusal :=
  match o with
  | .next _ => none
  | .fault _ => none
  | .refused r => some r

/-! ## WellFormed: each check of 00_scope.md R10 refuses what breaks it alone -/

theorem test_legal : ∀ c ∈ [cfgT, cfgB, cfgM, cfgLow, cfgHigh], c.Legal := by decide
theorem test_legal_standard : Config.standard.Legal := by decide
theorem test_illegal_trig_ticks :
    ¬ ({ cfgT with trigTicks := 0 } : Config).Legal ∧ ¬ ({ cfgT with trigTicks := 256 } : Config).Legal := by decide
theorem test_illegal_tw :
    ¬ ({ cfgT with tw := 0 } : Config).Legal ∧ ¬ ({ cfgT with tw := 17 } : Config).Legal := by decide
theorem test_illegal_div : ¬ ({ cfgT with div := 0 } : Config).Legal := by decide
theorem test_illegal_n : ¬ ({ cfgT with n := 0 } : Config).Legal ∧ ¬ ({ cfgT with n := 17 } : Config).Legal := by decide
theorem test_illegal_nch :
    ¬ ({ cfgT with nch := 0 } : Config).Legal ∧ ¬ ({ cfgT with nch := 5 } : Config).Legal := by decide
theorem test_illegal_dmax : ¬ ({ cfgT with dmax := 65536 } : Config).Legal := by decide
theorem test_illegal_mode_tag :
    ¬ ({ cfgT with modeTag := #v[0x2C, 0x31] } : Config).Legal
    ∧ ¬ ({ cfgT with modeTag := #v[0x30, 0x2C] } : Config).Legal := by decide
theorem test_illegal_rx_cap :
    ¬ ({ cfgT with rxCap := 4 } : Config).Legal ∧ ¬ ({ cfgT with rxCap := 9 } : Config).Legal
    ∧ ¬ ({ cfgM with rxCap := 5 } : Config).Legal := by decide
theorem test_illegal_tone : ¬ ({ cfgT with tone := cfgT.tone.set 0 ⟨1, 0⟩ } : Config).Legal := by decide
theorem test_illegal_refused :
    refusal (step (withInputs { cfgT with div := 0 } [.command 0x20000000])) = some .illegalConfig := by decide

/-! ## Decoding: words written out bit by bit, `opc`, `sel`, `imm` -/

theorem test_decode_reset : decode 0b00000000000000000000000000000000 = .ok .reset := by decide
theorem test_decode_rd : decode 0b00000001101011110000000000000000 = .ok (.rd 0xAF) := by decide
theorem test_decode_tick : decode 0b00010000000000000000000000000000 = .ok .tick := by decide
theorem test_decode_trigger : decode 0b00010001000000000000000000000000 = .ok .trigger := by decide
theorem test_decode_edge : decode 0b00010010000000000000000000000000 = .ok .edge := by decide
theorem test_decode_dist : decode 0b00100000000000000000000000000000 = .ok .dist := by decide
theorem test_decode_push : decode 0b00100001000000101000000000000001 = .ok (.push 2 0x8001) := by decide
theorem test_decode_pushd : decode 0b00100010000000110000000000000000 = .ok (.pushd 3) := by decide
theorem test_decode_level : decode 0b00110000000000000000000000011001 = .ok (.level 25) := by decide
theorem test_decode_levelf : decode 0b00110001000000010000000000000000 = .ok (.levelf 1) := by decide
theorem test_decode_preset_next : decode 0b00110010000000000000000000000000 = .ok .presetNext := by decide
theorem test_decode_enc : decode 0b01000000100000000000000011110111 = .ok (.enc true 247) := by decide
theorem test_decode_encf : decode 0b01000001100000100000000000000000 = .ok (.encf true 2) := by decide
theorem test_decode_txarm : decode 0b01000010000000000000000000000000 = .ok .txarm := by decide
theorem test_decode_txev : decode 0b01000011000000000000000000000000 = .ok .txev := by decide
theorem test_decode_rxev : decode 0b01010000001011000000000000000000 = .ok (.rxev 0x2C) := by decide
theorem test_decode_consume : decode 0b01010001000000000000000000000000 = .ok .consume := by decide
theorem test_decode_scan : decode 0b01100000000000000000000000000000 = .ok .scan := by decide

/-- R85: bits R83 does not name do not matter. -/
theorem test_decode_ignored_bits :
    decode 0x10FFFFFF = .ok .tick ∧ decode 0x21FE0005 = .ok (.push 2 5) ∧ decode 0x407F0005 = .ok (.enc false 5)
    ∧ decode 0x41FFFFFF = .ok (.encf true 3) ∧ decode 0x5037BEEF = .ok (.rxev 0x37) := by decide

/-- R84: a reserved `opc` is rejected by name. -/
theorem test_decode_reserved :
    decode 0x02000000 = .error (.reservedOpcode 0x02) ∧ decode 0x13000000 = .error (.reservedOpcode 0x13)
    ∧ decode 0xFF000000 = .error (.reservedOpcode 0xFF) := by decide

/-- The canonical words R95 and 95_test_vectors.md write. -/
theorem test_encode :
    encode (.push 0 100) = 0x21000064 ∧ encode (.enc true 247) = 0x408000F7 ∧ encode (.encf true 1) = 0x41810000
    ∧ encode (.rxev 0x2C) = 0x502C0000 ∧ encode (.rd 0x57) = 0x01570000 ∧ encode (.levelf 2) = 0x31020000 := by decide

theorem test_decode_table_word :
    decodeTableWord 32 0x2101000A = some (.push 1 10) ∧ decodeTableWord 32 0x07000000 = none := by decide

theorem test_fetch_runs_first :
    after (step (State.reset.withFetchWord 32 0x11000000)) (fun t => (t.cap.trig, t.cap.pulseCnt, t.inputs))
      = some (true, 10, []) := by decide

theorem test_reserved_refused :
    refusal (step (withInputs cfgT [.command 0x02000000])) = some (.reservedOpcode 0x02) := by decide

/-! ## Operations, one step each -/

/-- V-S1. -/
theorem test_reset :
    after (exec .reset { withCap cfgT (capOf 7 7 7 true true true) with frame := [1, 2, 3, 4, 5, 6] })
      (fun t => (statusWord t, t.cap.count, t.frame, t.disp.seg, t.disp.dsel))
      = some (0x0020, 0, [0, 0, 0, 0, 0, 0], 0xFF, 0) := by decide

/-- V-S1, V-S2. -/
theorem test_rd :
    [0x00, 0x2C, 0x57, 0x36, 0x46, 0x8A, 0xFF].map
        (fun n : Nat => after (exec (.rd (BitVec.ofNat 8 n)) (st cfgT)) (fun t => t.out.res))
      = [some 0x0020, some 220, some 0x00FF, some 0, some 0, some 0, some 0] := by decide

/-- V-A3: the preset view follows the index. -/
theorem test_rd_preset_view :
    after (exec (.rd 0x29) { st cfgT with alarm := { (st cfgT).alarm with presetIdx := 1 } }) (fun t => t.out.res)
      = some 2 := by decide

/-- V-K1: the tenth tick ends the pulse. -/
theorem test_tick_ends_pulse :
    after (exec .tick (withCap cfgT (capOf 9 0 1 false false true)))
      (fun t => (t.cap.count, t.cap.pulseCnt, statusWord t)) = some (10, 0, 0x0022) := by decide

/-- V-K3. -/
theorem test_tick_wraps :
    after (exec .tick (withCap cfgT (capOf 0xFFFF 0 0 true true false))) (fun t => t.cap.count) = some 0 := by decide

/-- V-K6. -/
theorem test_trigger :
    after (exec .trigger { st cfgT with cap :=
        { capOf 20 17 0 true true false with travel := 3, complete := true } })
      (fun t => (t.cap.count, t.cap.pulseCnt, t.cap.travel, statusWord t)) = some (0, 10, 3, 0x0028) := by decide

/-- V-K2. -/
theorem test_edge_falling :
    after (exec .edge (withCap cfgT (capOf 1560 110 0 true true false)))
      (fun t => (t.cap.end_, t.cap.travel, t.cap.start, statusWord t)) = some (1560, 1450, 110, 0x0023) := by decide

/-- V-K3. -/
theorem test_edge_wraps :
    after (exec .edge (withCap cfgT (capOf 0x0010 0xFFF0 0 true true false))) (fun t => t.cap.travel)
      = some 0x0020 := by decide

/-- V-F1. -/
theorem test_dist :
    [0, 57, 58, 1450, 23199, 23200, 23258, 65535].map (fun v : Nat =>
        after (exec .dist { st cfgT with cap := { (st cfgT).cap with travel := BitVec.ofNat 16 v } })
          (fun t => t.filter.dist.toNat))
      = [some 0, some 0, some 1, some 25, some 399, some 400, some 400, some 400] := by decide

/-- V-F5: a difference equal to the band updates. -/
theorem test_push_updates :
    after (exec (.push 0 56) (withChan cfgB 0 ⟨[50, 0, 0, 0, 0, 0, 0, 0, 0, 0], 1, 1, 50⟩))
      (fun t => (t.out.res, (t.chan 0).head, (t.chan 0).fcount)) = some (53, 2, 2) := by decide

/-- V-F5: a smaller one holds. -/
theorem test_push_holds :
    after (exec (.push 0 50) (withChan cfgB 0 ⟨[50, 56, 62, 0, 0, 0, 0, 0, 0, 0], 3, 3, 56⟩))
      (fun t => (t.out.res, (t.chan 0).ring)) = some (56, [50, 56, 62, 50, 0, 0, 0, 0, 0, 0]) := by decide

/-- V-F9. -/
theorem test_pushd :
    after (exec (.pushd 0) { st cfgT with filter := { (st cfgT).filter with dist := 25 } })
      (fun t => (t.out.res, t.filter.dist, memRead (t.chan 0).ring 0, (t.chan 0).head)) = some (25, 25, 25, 1) := by decide

/-- V-A1. -/
theorem test_level :
    [5, 25, 220, 26].map (fun d : Nat => after (exec (.level (BitVec.ofNat 16 d)) (st cfgT))
        (fun t => (t.alarm.level.toNat, t.alarm.pwmPeriod.toNat, t.alarm.pwmDuty.toNat)))
      = [some (5, 5000, 2500), some (4, 4000, 2000), some (1, 1000, 500), some (0, 0, 0)] := by decide

/-- V-A2: the first match wins. -/
theorem test_level_duplicates :
    [60, 5].map (fun d : Nat =>
        after (exec (.level (BitVec.ofNat 16 d)) { st cfgT with alarm := { (st cfgT).alarm with presetIdx := 2 } })
          (fun t => t.out.res)) = [some 5, some 2] := by decide

/-- V-A4. -/
theorem test_levelf :
    after (exec (.levelf 0) (withChan cfgT 0 ⟨[25, 0, 0, 0, 0, 0, 0, 0, 0, 0], 1, 1, 25⟩)) (fun t => t.out.res) = some 4
    ∧ after (exec (.levelf 2) (st cfgT)) (fun t => t.out.res) = some 0 := by decide

/-- V-A3. -/
theorem test_preset_next :
    [0, 1, 4].map (fun k : Nat =>
        after (exec .presetNext { st cfgT with alarm := { (st cfgT).alarm with presetIdx := BitVec.ofNat 3 k } })
          (fun t => t.out.res)) = [some 1, some 2, some 0] := by decide

/-- V-C1. -/
theorem test_enc :
    after (exec (.enc false 247) (st cfgT)) (fun t => (t.out.res, t.frame))
      = some (3, [0x37, 0x34, 0x32, 0x30, 0x33, 0x2C])
    ∧ after (exec (.enc false 65535) (st cfgT)) (fun t => (t.out.res, t.frame))
      = some (4, [0x35, 0x33, 0x35, 0x35, 0x34, 0x2C]) := by decide

/-- V-C2. -/
theorem test_enc_mode_tag :
    after (exec (.enc true 9090) (st cfgM)) (fun t => t.frame)
      = some [0x30, 0x39, 0x30, 0x39, 0x34, 0x31, 0x2C] := by decide

/-- V-C3. -/
theorem test_encf :
    after (exec (.encf false 0) (withChan cfgT 0 ⟨[25, 0, 0, 0, 0, 0, 0, 0, 0, 0], 1, 1, 25⟩))
      (fun t => (t.out.res, t.frame)) = some (2, [0x35, 0x32, 0x30, 0x30, 0x32, 0x2C]) := by decide

/-- V-T1. -/
theorem test_txarm :
    after (exec .txarm { st cfgT with frame := [0x35, 0x32, 0x30, 0x30, 0x32, 0x2C] })
      (fun t => (t.tx.buf, t.tx.idx, t.tx.en, t.tx.wireOut))
      = some ([0x35, 0x32, 0x30, 0x30, 0x32, 0x2C], 0, true, []) := by decide

/-- V-T1: the sixth byte ends the send. -/
theorem test_txev_last :
    after (exec .txev (withTx cfgT [0x35, 0x32, 0x30, 0x30, 0x32, 0x2C] 5 true))
      (fun t => (t.out, t.tx.idx, t.tx.en, t.tx.data, t.tx.wireOut)) = some (⟨0x012C, true⟩, 6, false, 0x2C, [0x2C]) := by
  decide

/-- V-T2. -/
theorem test_txev_unarmed :
    after (exec .txev (st cfgT)) (fun t => (t.out, t.tx.wireOut)) = some (⟨0, false⟩, []) := by decide

/-- V-T5: the sixth byte wraps the index. -/
theorem test_rxev_wraps :
    after (exec (.rxev 0x36) (withRx cfgT [0x31, 0x32, 0x33, 0x34, 0x35, 0] 5 true false)) (fun t => t.rx)
      = some ⟨[0x31, 0x32, 0x33, 0x34, 0x35, 0x36], 0, true, false⟩ := by decide

/-- V-T6: the sentinel is not stored. -/
theorem test_rxev_sentinel :
    after (exec (.rxev 0x2C) (withRx cfgT [0x37, 0x34, 0x32, 0x30, 0x33, 0] 5 true false))
      (fun t => (t.rx, statusWord t)) = some (⟨[0x37, 0x34, 0x32, 0x30, 0x33, 0], 0, false, true⟩, 0x0040) := by decide

/-- V-T6. -/
theorem test_consume :
    after (exec .consume (withRx cfgT [0x37, 0x34, 0x32, 0x30, 0x33, 0] 0 false true))
      (fun t => (t.out.res, t.disp.digit, t.disp.tag, statusWord t))
      = some (1, #v[0x37, 0x34, 0x32, 0x30], 0x33, 0x0020) := by decide

/-- V-T11. -/
theorem test_consume_nothing :
    after (exec .consume (withRx cfgT [0x37, 0, 0, 0, 0, 0] 1 true false)) (fun t => (t.out.res, t.disp.digit, t.rx.en))
      = some (0, #v[0, 0, 0, 0], true) := by decide

/-- V-D1: the scans of tag '3' from places 0, 1, 2. -/
theorem test_scan :
    [0, 1, 2].map (fun k : Nat => after (exec .scan (withDisp cfgT #v[0x31, 0x32, 0x33, 0x34] 0x33 (BitVec.ofNat 2 k)))
        (fun t => (t.out.res.toNat, t.disp.scanIdx.toNat))) = [some (0x01F9, 1), some (0x02A4, 2), some (0x04B0, 0)] := by
  decide

/-- V-D1 with tag '5'; V-D3; V-D4 with a mode that is not recognised. -/
theorem test_scan_dark :
    after (exec .scan (withDisp cfgT #v[0x31, 0x32, 0x33, 0x34] 0x35 1)) (fun t => (t.out.res, t.disp.scanIdx))
      = some (0x00FF, 0)
    ∧ after (exec .scan (withDisp cfgT #v[0x41, 0x38, 0x2D, 0x30] 0x33 0)) (fun t => t.out.res) = some 0x01FF
    ∧ after (exec .scan { st cfgM with disp := ⟨#v[0x30, 0x39, 0x30, 0x39], 0x34, 0x58, 0, 0xFF, 0⟩ })
      (fun t => t.out.res) = some 0x00FF := by decide

/-! ## The assembler: R95's forms -/

theorem test_assemble_forms :
    assemble cfgT ['R', 'D', ' ', 'S', 'E', 'G'] = some [0x01570000]
    ∧ assemble cfgT ['R', 'X', 'E', 'V', ' ', '0', 'x', '2', 'C'] = some [0x502C0000]
    ∧ assemble cfgT [';', ' ', 'x'] = some []
    ∧ assemble cfgT ['P', 'U', 'S', 'H', ' ', '4', ',', ' ', '1'] = none := by decide

theorem test_assemble_register :
    assemble cfgT ['R', 'D', ' ', 'R', 'I', 'N', 'G', '[', '1', ']', '[', '1', '5', ']'] = some [0x019F0000] := by decide

theorem test_assemble_pseudo :
    assemble cfgT ['T', 'I', 'C', 'K', 'S', ' ', '2'] = some [0x10000000, 0x10000000]
    ∧ assemble cfgT ['S', 'E', 'N', 'D']
      = some [0x42000000, 0x43000000, 0x43000000, 0x43000000, 0x43000000, 0x43000000, 0x43000000] := by decide

/-! ## Witnesses: for each obligation with hypotheses, a state and operands that meet them, at the boundary values of each
clause -/

/-- A state that meets the invariants and is not a reset state: one primed channel, a pulse in its last tick, a frame
built, a send at its last byte, a frame received, a place lit. -/
def busy : State where
  cfg := { cfgT with n := 2, nch := 1 }
  inputs := [.tickIn, .command 0x21000064]
  out := ⟨0, false⟩
  cap := capOf 9 0 1 false false true
  filter := ⟨400, [⟨[7, 9], 1, 2, 8⟩]⟩
  alarm := ⟨4, 4000, 2000, 4⟩
  frame := [0x37, 0x34, 0x32, 0x30, 0x33, 0x2C]
  tx := ⟨[0x37, 0x34, 0x32, 0x30, 0x33, 0x2C], 5, true, 0x33, [0x37, 0x34, 0x32, 0x30, 0x33]⟩
  rx := ⟨[0x37, 0x34, 0x32, 0x30, 0x33, 0], 0, false, true⟩
  disp := ⟨#v[0x37, 0x34, 0x32, 0x30], 0x33, 0, 2, 0x99, 2⟩

theorem witness_busy_legal : busy.cfg.Legal := by decide

theorem witness_busy_inv : busy.Inv where
  memory := by decide
  capture := ⟨by decide, by decide, by decide, by decide, by decide, by decide, by decide⟩
  filter := ⟨by decide, fun k hk => by
    obtain rfl : k = ⟨[7, 9], 1, 2, 8⟩ := by simpa [busy] using hk
    exact ⟨by decide, by decide, by decide, fun h => absurd h (by decide)⟩⟩
  alarm := ⟨by decide, by decide, by decide⟩
  frame := .inr ⟨by decide, by decide, by decide, by decide⟩
  transmit := ⟨by decide, by decide⟩
  receive := ⟨by decide, by decide, by decide⟩
  display := ⟨by decide, by decide, by decide⟩

/-- The reset state of a small configuration meets the invariants. -/
theorem witness_low_inv : (st cfgLow).Inv where
  memory := by decide
  capture := ⟨by decide, by decide, by decide, by decide, by decide, by decide, by decide⟩
  filter := ⟨by decide, fun k hk => by
    rw [List.eq_of_mem_replicate hk]
    exact ⟨by decide, by decide, by decide, fun _ i _ _ => memRead_replicate_zero _ _⟩⟩
  alarm := ⟨by decide, by decide, by decide⟩
  frame := .inl rfl
  transmit := ⟨by decide, by decide⟩
  receive := ⟨by decide, by decide, by decide⟩
  display := ⟨by decide, by decide, by decide⟩

/-- IgnoredBitsDoNotMatter: both sides hold, and both fail. -/
theorem witness_ignored_bits :
    decode 0x10FFFFFF = .ok .tick ∧ (0x10FFFFFF ^^^ encode .tick) &&& (0xFF000000 ||| Instr.tick.operandMask) = 0
    ∧ decode 0x40000000 ≠ .ok (.enc true 0)
    ∧ (0x40000000 ^^^ encode (.enc true 0)) &&& (0xFF000000 ||| (Instr.enc true 0).operandMask) ≠ 0 := by decide

theorem witness_reserved :
    opcOf 0x13000000 ∉ ([0x00, 0x01, 0x10, 0x11, 0x12, 0x20, 0x21, 0x22, 0x30, 0x31, 0x32, 0x40, 0x41, 0x42, 0x43, 0x50,
      0x51, 0x60] : List Byte)
    ∧ (withInputs cfgT [.command 0x13000000]).cfg.Legal
    ∧ (withInputs cfgT [.command 0x13000000]).inputs = .command 0x13000000 :: [] := by decide

theorem witness_step_runs :
    (withInputs cfgT [.command 0x21000064, .rst]).cfg.Legal
    ∧ (withInputs cfgT [.command 0x21000064, .rst]).inputs = .command 0x21000064 :: [.rst]
    ∧ decode 0x21000064 = .ok (.push 0 100) := by decide

theorem witness_step_idle : (st cfgT).inputs = [] := rfl

/-- One illegal configuration for each constraint, with an input issued. -/
theorem witness_illegal :
    ∀ c ∈ [{ cfgT with trigTicks := 0 }, { cfgT with trigTicks := 256 }, { cfgT with tw := 0 }, { cfgT with tw := 17 },
        { cfgT with div := 0 }, { cfgT with n := 0 }, { cfgT with n := 17 }, { cfgT with nch := 0 },
        { cfgT with nch := 5 }, { cfgT with dmax := 65536 }, { cfgT with modeTag := #v[0x2C, 0x31] },
        { cfgT with rxCap := 4 }, { cfgM with rxCap := 5 }, { cfgT with rxCap := 9 },
        { cfgT with tone := cfgT.tone.set 0 ⟨0, 1⟩ }],
      (withInputs c [.rst]).inputs = .rst :: [] ∧ ¬ c.Legal := by decide

theorem witness_total : after (exec .scan (st cfgT)) (fun _ => ()) = some () := by decide

/-- StepKeepsTheInvariants: a step from `busy`, and one from a state with nothing issued. -/
theorem witness_step_keeps :
    (busy.cfg.Legal ∧ busy.Inv ∧ ∃ t, step busy = .next t)
    ∧ ((st cfgLow).cfg.Legal ∧ (st cfgLow).Inv ∧ ∃ t, step (st cfgLow) = .next t) :=
  ⟨⟨witness_busy_legal, witness_busy_inv, _, rfl⟩, by decide, witness_low_inv, _, rfl⟩

/-- FlagsChangeOnlyAsListed: each flag rises and falls by one of its writers. -/
theorem witness_flags :
    after (exec .edge (withCap cfgT (capOf 2 1 0 true true false))) (fun t => (t.cap.complete, t.cap.lastEdge))
      = some (true, false)
    ∧ after (exec .edge (withCap cfgT (capOf 2 1 0 true false false))) (fun t => t.cap.lastEdge) = some true
    ∧ after (exec .trigger (withCap cfgT { capOf 2 1 0 true true false with complete := true }))
      (fun t => (t.cap.complete, t.cap.armed, t.cap.lastEdge, t.cap.trig)) = some (false, false, false, true)
    ∧ after (exec .tick (withCap cfgT (capOf 9 0 1 false false true))) (fun t => (t.cap.armed, t.cap.trig))
      = some (true, false)
    ∧ after (exec .txarm (st cfgT)) (fun t => t.tx.en) = some true
    ∧ after (exec .txev (withTx cfgT [1, 2, 3, 4, 5, 6] 5 true)) (fun t => t.tx.en) = some false
    ∧ after (exec (.rxev 0x2C) (st cfgT)) (fun t => (t.rx.en, t.rx.frameReady)) = some (false, true)
    ∧ after (exec .consume (withRx cfgT [0, 0, 0, 0, 0, 0] 0 false true)) (fun t => (t.rx.en, t.rx.frameReady))
      = some (true, false) := by decide

/-- RegistersChangeOnlyByTheirWriters: an operation that is not RESET and is no writer of the register, for every clause. -/
theorem witness_registers :
    (after (exec (.rd 0) busy) (fun t => t.cap.count) = some 9) ∧ (Instr.rd 0 ≠ .reset) ∧ Instr.rd 0 ≠ .tick
    ∧ Instr.rd 0 ≠ .trigger ∧ Instr.rd 0 ≠ .edge ∧ Instr.rd 0 ≠ .dist ∧ (∀ ch v, Instr.rd 0 ≠ .push ch v)
    ∧ (∀ ch, Instr.rd 0 ≠ .pushd ch) ∧ (∀ d, Instr.rd 0 ≠ .level d) ∧ (∀ ch, Instr.rd 0 ≠ .levelf ch)
    ∧ Instr.rd 0 ≠ .presetNext ∧ (∀ m v, Instr.rd 0 ≠ .enc m v) ∧ (∀ m ch, Instr.rd 0 ≠ .encf m ch)
    ∧ Instr.rd 0 ≠ .txarm ∧ Instr.rd 0 ≠ .txev ∧ (∀ b, Instr.rd 0 ≠ .rxev b) ∧ Instr.rd 0 ≠ .consume
    ∧ Instr.rd 0 ≠ .scan := by
  refine ⟨by decide, ?_⟩
  simp

/-- ReadReturnsTheNumberedRegister: the first and last number of every range, and numbers no range has. -/
theorem witness_read :
    cfgT.Legal ∧ (st cfgT).alarm.presetIdx.toNat < 5
    ∧ (∀ n ∈ [0x00, 0x06, 0x10, 0x13, 0x14, 0x17, 0x18, 0x1B, 0x20, 0x23, 0x28, 0x2C, 0x30, 0x35, 0x38, 0x3D, 0x3F, 0x40,
        0x45, 0x48, 0x49, 0x50, 0x58], AssignedNumber cfgT n) := by
  refine ⟨by decide, by decide, ?_⟩
  intro n hn
  fin_cases hn <;> simp [AssignedNumber, cfgT, Config.frameLen]

theorem witness_read_ring : AssignedNumber cfgT 0x80 ∧ AssignedNumber cfgT 0xB9 := by
  have h : ∀ ch i, ch < 4 → i < 10 → AssignedNumber cfgT (0x80 + 16 * ch + i) := fun ch i h1 h2 => by
    unfold AssignedNumber
    right; right; right; right; right; right; right; right; right; right; right; right; right
    exact ⟨ch, i, h1, h2, rfl⟩
  exact ⟨h 0 0 (by decide) (by decide), h 3 9 (by decide) (by decide)⟩

theorem witness_read_reserved : ∀ n ∈ [0x07, 0x0F, 0x1C, 0x24, 0x36, 0x46, 0x59, 0x7F, 0x8A, 0xBA, 0xFF],
    n < 256 ∧ ¬ AssignedNumber cfgT n := by
  intro n hn
  have h : ∀ m, AssignedNumber cfgT m → m < 0x80 ∨ (m - 0x80) % 16 < 10 ∧ m < 0xC0 := by
    intro m hm
    simp only [AssignedNumber, cfgT, Config.frameLen] at hm
    by_cases h8 : m < 0x80
    · exact .inl h8
    · obtain ⟨ch, i, h1, h2, rfl⟩ : ∃ ch i, ch < 4 ∧ i < 10 ∧ m = 0x80 + 16 * ch + i := by
        rcases hm with h | h | h | h | h | h | h | h | h | h | h | h | h | h
        all_goals first | exact h | (exfalso; omega) | (exfalso; simp at h; omega)
      omega
  fin_cases hn <;> refine ⟨by decide, fun hm => ?_⟩
  all_goals first | exact absurd (h _ hm) (by decide) | skip
  all_goals
    simp only [AssignedNumber, cfgT, Config.frameLen] at hm
    rcases hm with h | h | h | h | h | h | h | h | h | h | h | h | h | h
    all_goals first | (simp at h; done) | (obtain ⟨ch, i, h1, h2, h3⟩ := h; omega)

/-- TickCountsAndRunsDownThePulse: no pulse, the last tick of one, the longest. -/
theorem witness_tick :
    ∀ s ∈ [withCap cfgT (capOf 0xFFFF 0 0 true true false), withCap cfgT (capOf 9 0 1 false false true),
        withCap cfgHigh (capOf 0 0 255 false false true)],
      s.cfg.Legal ∧ (s.cap.trig = true → 1 ≤ s.cap.pulseCnt.toNat) := by decide

/-- TriggerStartsACycle: both settings of `TRIG_CLEARS_EDGE`. -/
theorem witness_trigger :
    (st cfgT).cfg.Legal ∧ cfgT.trigClearsEdge = true ∧ (st cfgLow).cfg.Legal ∧ cfgLow.trigClearsEdge = false := by decide

/-- EdgeLatchesByTheFlagAlone: not armed, rising, falling with and without a wrap. -/
theorem witness_edge :
    (st cfgT).cfg.Legal ∧ (st cfgT).cap.armed = false
    ∧ (capOf 0xFFFF 0 0 true false false).armed = true ∧ (capOf 0xFFFF 0 0 true false false).lastEdge = false
    ∧ (capOf 0 0xFFFF 0 true true false).armed = true ∧ (capOf 0 0xFFFF 0 true true false).lastEdge = true := by decide

/-- TravelIsTheTicksBetweenTheEdges: the least and the greatest counter, `k` below and at the modulus. -/
theorem witness_travel :
    (∀ s ∈ [withCap cfgT (capOf 0 0 0 true false false), withCap cfgT (capOf 0xFFFF 0 0 true false false),
        withCap cfgLow (capOf 1 0 0 true false false)],
      s.cfg.Legal ∧ s.cap.count.toNat < 2 ^ s.cfg.tw ∧ s.cap.armed = true ∧ s.cap.lastEdge = false ∧ s.cap.trig = false)
    ∧ 1 < 2 ^ cfgLow.tw ∧ ¬ 2 < 2 ^ cfgLow.tw := by decide

/-- TriggerPulseLastsTrigTicks: no tick, one before the end, the end. -/
theorem witness_pulse :
    (st cfgT).cfg.Legal ∧ 0 ≤ cfgT.trigTicks ∧ 9 < cfgT.trigTicks ∧ 10 = cfgT.trigTicks
    ∧ (st cfgHigh).cfg.Legal ∧ 255 ≤ cfgHigh.trigTicks := by decide

/-- MeasureGivesTheEchoLength: an edge flag that TRIGGER clears, one that is clear already, and a stale one. -/
theorem witness_measure :
    (busy.cfg.Legal ∧ busy.cfg.trigClearsEdge = true)
    ∧ ((st cfgLow).cfg.Legal ∧ cfgLow.trigClearsEdge = false ∧ (st cfgLow).cap.lastEdge = false)
    ∧ (withCap cfgLow (capOf 0 1 0 true true false)).cap.lastEdge = true := by decide

/-- MissingEchoKeepsTheStaleTravel: no edge; and after a TRIGGER an edge in the pulse, one after it, under both premises. -/
theorem witness_missing_echo :
    ((∀ i ∈ [Instr.trigger, .tick, .dist], i ≠ .edge ∧ i ≠ .reset) ∧ Instr.trigger ∈ [Instr.trigger, .tick, .dist]
      ∧ after (runInstrs [.trigger, .tick, .dist] busy) (fun t => t.cap.complete) = some false)
    ∧ (busy.cfg.Legal ∧ busy.cfg.trigClearsEdge = true ∧ (st cfgLow).cfg.Legal ∧ (st cfgLow).cap.lastEdge = false
      ∧ (∀ i ∈ [Instr.edge, .edge] ++ [Instr.tick, .edge, .tick], i ≠ .reset)
      ∧ [Instr.edge, .edge].count .tick < cfgLow.trigTicks ∧ [Instr.tick, .edge, .tick].count .edge ≤ 1
      ∧ after (runInstrs (.trigger :: ([.edge, .edge] ++ [.tick, .edge, .tick])) (st cfgLow)) (fun t => t.cap.lastEdge)
        = some true) := by decide

theorem witness_dist : (st cfgLow).cfg.Legal ∧ (st cfgHigh).cfg.Legal := by decide

/-- PushFiltersOneSample and SumOfTheHeldIsSumOfTheRing: a full ring, a first push, a channel that is not there. -/
theorem witness_push :
    (busy.cfg.Legal ∧ busy.Inv ∧ (0 : ChannelNo).toNat < busy.cfg.nch ∧ ¬ (1 : ChannelNo).toNat < busy.cfg.nch
      ∧ ∃ t, exec (.push 0 65535) busy = .next t)
    ∧ ((st cfgLow).cfg.Legal ∧ (st cfgLow).Inv ∧ (0 : ChannelNo).toNat < cfgLow.nch) :=
  ⟨⟨witness_busy_legal, witness_busy_inv, by decide, by decide, _, rfl⟩, by decide, witness_low_inv, by decide⟩

/-- The dead-band of PUSH: one state where the value is held and one where it is not. -/
theorem witness_push_band :
    deadband cfgB 0 56 54 = 3 ∧ absDiff 54 56 < 3 ∧ deadband cfgB 0 50 53 = 3 ∧ ¬ absDiff 53 50 < 3 := by decide

/-- MeanIsOfTheLastSamples: a run that pushes on the channel, on another, and from `dist`. -/
theorem witness_mean :
    cfgLow.Legal ∧ (0 : ChannelNo).toNat < cfgLow.nch ∧ cfgT.Legal ∧ (3 : ChannelNo).toNat < cfgT.nch
    ∧ (∀ i ∈ [Instr.push 3 10, .tick, .push 1 7, .pushd 3], i ≠ .reset)
    ∧ samplesPushed 3 [.push 3 10, .tick, .push 1 7, .pushd 3] (st cfgT) = [10, 0] := by decide

/-- ResetLeavesTheResetValues: the pin. -/
theorem witness_reset_pin :
    (withInputs cfgT [.rst, .tickIn]).cfg.Legal ∧ (withInputs cfgT [.rst, .tickIn]).inputs = .rst :: [.tickIn] := by decide

theorem witness_absent_channel : (st cfgLow).cfg.nch ≤ (1 : ChannelNo).toNat ∧ busy.cfg.nch ≤ (3 : ChannelNo).toNat := by
  decide

/-- LevelIsTheFirstExactMatch: first and last bank, a match at the first and the last place, a duplicate, no match. -/
theorem witness_level :
    (st cfgT).cfg.Legal ∧ (st cfgT).alarm.presetIdx.toNat < 5 ∧ busy.cfg.Legal ∧ busy.alarm.presetIdx.toNat < 5
    ∧ (cfgT.presetBank[0][0] = 5 ∧ cfgT.presetBank[0][4] = 220 ∧ ∀ j : Fin 5, j < 4 → cfgT.presetBank[0][j] ≠ 220)
    ∧ (cfgT.presetBank[2][3] = 5 ∧ cfgT.presetBank[2][4] = 5 ∧ ∀ j : Fin 5, j < 3 → cfgT.presetBank[2][j] ≠ 5)
    ∧ ∀ i : Fin 5, cfgT.presetBank[4][i] ≠ 26 := by decide

/-- LevelfIsLevelOfTheFilteredValue, EncfIsEncOfTheFilteredValue: the last channel there is, and the first there is not. -/
theorem witness_channel_operand : (0 : ChannelNo).toNat < busy.cfg.nch ∧ ¬ (1 : ChannelNo).toNat < busy.cfg.nch := by decide

theorem witness_enc : (st cfgT).cfg.hasModeTag = false ∧ (st cfgM).cfg.hasModeTag = true ∧ (st cfgT).cfg.Legal
    ∧ (st cfgM).cfg.Legal ∧ after (exec (.enc true 0) (st cfgM)) (fun t => t.frame.length) = some 7 := by decide

/-- TxevSendsTheNextByte: the first byte, the last, and nothing armed. -/
theorem witness_txev :
    (∀ s ∈ [withTx cfgT [1, 2, 3, 4, 5, 6] 0 true, withTx cfgT [1, 2, 3, 4, 5, 6] 5 true],
      s.cfg.Legal ∧ s.tx.idx.toNat < s.cfg.frameLen ∧ s.tx.en = true)
    ∧ (st cfgT).cfg.Legal ∧ (st cfgT).tx.en = false ∧ (withTx cfgT [1, 2, 3, 4, 5, 6] 6 false).tx.en = false := by decide

theorem witness_send : busy.cfg.Legal ∧ busy.frame.length = busy.cfg.frameLen ∧ (st cfgM).cfg.Legal
    ∧ (st cfgM).frame.length = cfgM.frameLen := by decide

/-- RxevStoresOrCloses: the first cell, the last cell, and a receiver that is off. -/
theorem witness_rxev :
    ∀ s ∈ [st cfgT, withRx cfgT [0x31, 0x32, 0x33, 0x34, 0x35, 0] 5 true false, withRx cfgT [0, 0, 0, 0, 0, 0] 0 false true],
      s.cfg.Legal ∧ s.rx.idx.toNat < s.cfg.rxCap ∧ s.rx.buf.length = s.cfg.rxCap := by decide

/-- OverrunWrapsSilently: exactly the capacity, and one more. -/
theorem witness_overrun :
    (st cfgT).cfg.Legal ∧ (st cfgT).rx.buf.length = cfgT.rxCap ∧ (st cfgT).rx.idx.toNat < cfgT.rxCap
    ∧ (st cfgT).rx.en = true ∧ (st cfgT).rx.idx = 0
    ∧ (0x2C : Byte) ∉ ([0x31, 0x32, 0x33, 0x34, 0x35, 0x36] : List Byte)
    ∧ ([0x31, 0x32, 0x33, 0x34, 0x35, 0x36] : List Byte).length = cfgT.rxCap
    ∧ (0x2C : Byte) ∉ ([0x31, 0x32, 0x33, 0x34, 0x35, 0x36, 0x37] : List Byte) := by decide

theorem witness_consume :
    (st cfgT).rx.frameReady = false ∧ busy.rx.frameReady = true ∧ busy.cfg.hasModeTag = false
    ∧ (withRx cfgM [0, 0, 0, 0, 0, 0, 0] 0 false true).rx.frameReady = true ∧ cfgM.hasModeTag = true := by decide

/-- FrameRoundTrip and ValueCrossesTheWire, without and with a mode tag. -/
theorem witness_round_trip :
    ∀ p ∈ [(busy, st cfgT), (st cfgM, st cfgHigh)],
      p.1.cfg.Legal ∧ p.2.cfg.Legal ∧ p.2.cfg.hasModeTag = p.1.cfg.hasModeTag ∧ p.2.rx.buf.length = p.2.cfg.rxCap
      ∧ p.2.rx.en = true ∧ p.2.rx.idx = 0 ∧ p.2.cfg.modeTag = p.1.cfg.modeTag := by decide

theorem witness_directions : ∃ i, i = Instr.txarm ∨ i = Instr.txev := ⟨_, .inl rfl⟩

theorem witness_disabled :
    (st cfgT).cap.armed = false ∧ (st cfgT).tx.en = false ∧ busy.rx.en = false := by decide

/-- ActiveCountIsReadFromTheTags: every tag, a tag on each side, a mode recognised and not. -/
theorem witness_active :
    (∀ b ∈ ([0x30, 0x35, 0x00] : List Byte), b ∉ ([0x31, 0x32, 0x33, 0x34] : List Byte))
    ∧ (0x31 : Byte) ∈ ([0x31, 0x32, 0x33, 0x34] : List Byte) ∧ (0x34 : Byte) ∈ ([0x31, 0x32, 0x33, 0x34] : List Byte)
    ∧ cfgM.hasModeTag = true ∧ (0x31 : Byte) = cfgM.modeTag[1] ∧ (0x58 : Byte) ≠ cfgM.modeTag[0]
    ∧ (0x58 : Byte) ≠ cfgM.modeTag[1] := by decide

/-- SegmentPatternOfAByte: the first and last digit, and the bytes beside them. -/
theorem witness_segment :
    (0x30 : Byte) = BitVec.ofNat 8 (0x30 + 0) ∧ (0x39 : Byte) = BitVec.ofNat 8 (0x30 + 9)
    ∧ (∀ k, k < 10 → (0x2F : Byte) ≠ BitVec.ofNat 8 (0x30 + k))
    ∧ ∀ k, k < 10 → (0x3A : Byte) ≠ BitVec.ofNat 8 (0x30 + k) := by decide

/-- ScanLightsTheNextPlace and ScanPassStrobesEachLineOnce: counts 0, 1 and 4, from place 0. -/
theorem witness_scan :
    activeCount cfgT (withDisp cfgT #v[0x31, 0x32, 0x33, 0x34] 0x31 0).disp = 1
    ∧ activeCount cfgT (withDisp cfgT #v[0x31, 0x32, 0x33, 0x34] 0x34 0).disp = 4
    ∧ (withDisp cfgT #v[0x31, 0x32, 0x33, 0x34] 0x34 0).disp.scanIdx = 0
    ∧ activeCount cfgT (st cfgT).disp = 0 := by decide

/-- What `f` says of the link after a run, if it has one. -/
def afterLink {α : Type} (o : Host.Outcome Link Fault Refusal) (f : Link → α) : Option α :=
  match o with
  | .next l => some (f l)
  | .fault _ => none
  | .refused _ => none

/-- R229: the display node receives nothing that the wire does not give it, by the pin or by the word. -/
theorem test_wire_alone_gives_bytes :
    [LinkEvent.display (.rxIn 0x2C), .display (.command 0x502C0000)].map (fun e =>
        afterLink (linkStep false e (Link.initial cfgT cfgT)) (fun l => l.display.rx.frameReady))
      = [some false, some false] := by decide

/-- A run with a byte sent and taken (the reset frame's first byte), and a delivery with nothing on the wire. -/
def wireRun : List LinkEvent := [.deliver, .sensor (.command 0x42000000), .sensor .txReady, .deliver]

/-- WireDeliversInOrder: a run without a RESET of the sensor, one with, a byte on the wire, a receive event. -/
theorem witness_wire :
    afterLink (linkRun false wireRun (Link.initial cfgT cfgT)) (fun l => (l.sent, l.taken, l.delivered))
      = some ([0x00], 1, [0x00])
    ∧ (∀ x ∈ [Input.command 0x42000000, .txReady], inputInstr x ≠ .ok .reset)
    ∧ afterLink (linkRun false (wireRun ++ [.sensor .rst]) (Link.initial cfgT cfgT))
      (fun l => (l.sent, l.sensor.tx.wireOut)) = some ([0x00], [])
    ∧ (st cfgT).cfg.Legal ∧ ([0x37, 0x2C] : List Byte)[1]? = some 0x2C
    ∧ inputInstr (.rxIn 0x2C) = .ok (.rxev 0x2C) ∧ inputInstr (.command 0x502C0000) = .ok (.rxev 0x2C) := by decide

/-- The premise of WireDeliversInOrder on the sensor's inputs, for `wireRun`. -/
theorem witness_wire_no_reset : ∀ x, .sensor x ∈ wireRun → inputInstr x ≠ .ok .reset := by
  intro x hx
  have h : x = .command 0x42000000 ∨ x = .txReady := by simpa [wireRun] using hx
  rcases h with rfl | rfl <;> decide

/-- EnoughDeliveriesEmptyTheWire: bytes on the wire, and none. -/
theorem witness_enough_deliveries :
    ∀ l ∈ [{ Link.initial cfgT cfgT with sent := [0x37, 0x2C], taken := 1, delivered := [0x37] }, Link.initial cfgT cfgT],
      l.display.cfg.Legal ∧ l.taken ≤ l.sent.length := by decide

/-- LossyWireAddsNoByte: a run with a byte corrupted, and one with a byte lost and none corrupted. -/
theorem witness_lossy_wire :
    afterLink (linkRun true [.sensor (.command 0x42000000), .sensor .txReady, .corrupt 0x37] (Link.initial cfgT cfgT))
      (fun l => (l.sent, l.taken, l.delivered)) = some ([0x00], 1, [0x37])
    ∧ afterLink (linkRun true [.sensor (.command 0x42000000), .sensor .txReady, .drop] (Link.initial cfgT cfgT))
      (fun l => (l.sent, l.taken, l.delivered)) = some ([0x00], 1, [])
    ∧ ∀ b, LinkEvent.corrupt b ∉ [.sensor (.command 0x42000000), .sensor .txReady, .drop] := by
  refine ⟨by decide, by decide, fun b => by simp⟩

end Sys2Proof.Tests
end

/-! # Scope: the step, the configuration and the dead-band table (00_scope.md) -/

namespace Sys2Proof.Machine

/-! ## The dead-band as a table of points (00_scope.md R9, 42_filter.md R134) -/

section DeadbandTable
variable (f : ChannelNo → Word → Word → Nat)

/-- The row that covers one triple of channel, previous value and mean alone. -/
def pointRow (x : ChannelNo × Word × Word) : BandRow where
  ch := x.1
  prevLo := x.2.1
  prevHi := x.2.1
  meanLo := x.2.2
  meanHi := x.2.2
  band := f x.1 x.2.1 x.2.2

/-- The table with a row for each triple of a list. -/
def pointTable (xs : List (ChannelNo × Word × Word)) : BandTable where
  rows := xs.map (pointRow f)
  otherwise := 0

theorem rowCovers_pointRow_iff (x : ChannelNo × Word × Word) (ch : ChannelNo) (p a : Word) :
    rowCovers (pointRow f x) ch p a = true ↔ x = (ch, p, a) := by
  obtain ⟨ch', p', a'⟩ := x
  rw [rowCovers, decide_eq_true_iff, Prod.mk.injEq, Prod.mk.injEq]
  constructor
  · rintro ⟨hch, hp, hp', ha, ha'⟩
    exact ⟨hch, BitVec.le_antisymm hp hp', BitVec.le_antisymm ha ha'⟩
  · rintro ⟨rfl, rfl, rfl⟩
    exact ⟨rfl, BitVec.le_refl _, BitVec.le_refl _, BitVec.le_refl _, BitVec.le_refl _⟩

/-- The first row that covers the arguments has their band, as no row covers any other triple. -/
theorem bandOf_pointTable {xs : List (ChannelNo × Word × Word)} {ch : ChannelNo} {p a : Word}
    (h : (ch, p, a) ∈ xs) : bandOf (pointTable f xs) ch p a = f ch p a := by
  unfold bandOf
  split
  next r hr =>
    obtain ⟨x, -, rfl⟩ := List.mem_map.1 (List.mem_of_find?_eq_some hr)
    have hcovers : rowCovers (pointRow f x) ch p a = true := List.find?_some (p := (rowCovers · ch p a)) hr
    obtain rfl := (rowCovers_pointRow_iff f x ch p a).1 hcovers
    rfl
  next hr =>
    exact absurd ((rowCovers_pointRow_iff f _ ch p a).2 rfl)
      (List.find?_eq_none.1 hr _ (List.mem_map_of_mem h))

end DeadbandTable

/-- Settles O31: the table has a row for every triple of arguments, and each row covers its own triple alone. -/
theorem everyDeadbandIsATable : Obligations.EveryDeadbandIsATable := by
  intro f
  obtain ⟨xs, -, hxs⟩ := Finite.exists_univ_list (ChannelNo × Word × Word)
  exact ⟨pointTable f xs, fun ch p a => bandOf_pointTable f (hxs (ch, p, a))⟩

/-! ## One step (00_scope.md R10, R13, R17) -/

section Step
variable {s : State} {x : Input} {rest : List Input}

theorem step_of_no_input (h : s.inputs = []) : step s = .next (idle s) := by
  simp only [step, h]

theorem step_of_input (h : s.inputs = x :: rest) : step s = perform x { s with inputs := rest } := by
  simp only [step, h]

theorem perform_of_legal {i : Instr} (hl : s.cfg.Legal) (hx : inputInstr x = .ok i) :
    perform x s = exec i s := by
  simp only [perform, if_pos hl, hx]

theorem perform_of_illegal (hl : ¬ s.cfg.Legal) : perform x s = .refused .illegalConfig := if_neg hl

end Step

/-- Settles O6: the oldest input is performed, and it starts the operation its word decodes to. -/
theorem stepRunsTheDecodedInstruction : Obligations.StepRunsTheDecodedInstruction := by
  intro s w rest i hl hin hw
  calc step s = perform (.command w) { s with inputs := rest } := step_of_input hin
    _ = exec i { s with inputs := rest } := perform_of_legal hl hw

/-- Settles O8: the step is `idle`, which writes the strobe alone. -/
theorem stepWithoutInputHolds : Obligations.StepWithoutInputHolds :=
  fun _ h => step_of_no_input h

/-- `PAYLOAD_LEN` as a number (00_scope.md R9). -/
theorem payloadLen_eq (c : Config) : c.payloadLen = if c.hasModeTag then 6 else 5 := by
  unfold Config.payloadLen Config.frameLen
  split <;> rfl

/-- Settles O9: the constraints written out are those of `Config.Legal`, and `perform` refuses without it. -/
theorem illegalConfigurationIsRefused : Obligations.IllegalConfigurationIsRefused := by
  intro s x rest hin hbroken
  have hl : ¬ s.cfg.Legal := by
    rwa [Config.Legal, Config.RxCapOk, payloadLen_eq]
  exact (step_of_input hin).trans (perform_of_illegal hl)

/-! ## Operations are total and keep the configuration and the inputs (00_scope.md R15, 20_memory.md R74) -/

theorem pushSample_cfg_inputs (ch : ChannelNo) (v : Word) (s : State) :
    (pushSample ch v s).cfg = s.cfg ∧ (pushSample ch v s).inputs = s.inputs := by
  rcases pushSample_cases ch v s with ⟨-, e⟩ | ⟨-, e⟩ <;> rw [e] <;> exact ⟨rfl, rfl⟩

/-- What every operation leaves unchanged: the configuration and the pending inputs. -/
theorem exec_cfg_inputs {i : Instr} {s t : State} (h : exec i s = .next t) :
    t.cfg = s.cfg ∧ t.inputs = s.inputs := by
  cases i
  all_goals injection h with h; subst h
  case push ch v => exact pushSample_cfg_inputs ch v s
  case pushd ch => exact pushSample_cfg_inputs ch s.filter.dist s
  case levelf => split <;> exact ⟨rfl, rfl⟩
  case encf => split <;> exact ⟨rfl, rfl⟩
  case txev => split <;> exact ⟨rfl, rfl⟩
  case consume => split <;> exact ⟨rfl, rfl⟩
  all_goals exact ⟨rfl, rfl⟩

/-- Settles O10: `exec` answers a next state (`exec_isNext`), the only one as it is a function, and keeps both fields. -/
theorem everyOperationHasExactlyOneNextState : Obligations.EveryOperationHasExactlyOneNextState := by
  intro i s
  obtain ⟨t, ht⟩ := exec_isNext i s
  exact ⟨⟨t, ht, fun u hu => Host.Outcome.next.inj (hu.symm.trans ht)⟩, fun _ => exec_cfg_inputs⟩

end Sys2Proof.Machine

/-! # State: what an operation can do to each unit, the invariants, reset, RD (10_state.md, 40_system.md) -/

namespace Sys2Proof.Machine

/-! ## What the units' operations can do, said once -/

section UnitCases
variable (c : Config)

theorem tickCapture_cases (k : Capture) :
    (k.trig = false ∧ tickCapture c k = { k with count := truncTW c (k.count + 1) })
    ∨ (k.trig = true ∧ k.pulseCnt - 1 = 0 ∧ tickCapture c k
      = { k with count := truncTW c (k.count + 1), pulseCnt := k.pulseCnt - 1, trig := false, armed := true })
    ∨ (k.trig = true ∧ k.pulseCnt - 1 ≠ 0 ∧ tickCapture c k
      = { k with count := truncTW c (k.count + 1), pulseCnt := k.pulseCnt - 1 }) := by
  simp only [tickCapture, runDownPulse]
  split
  · next ht =>
    split
    · next hp => exact .inr (.inl ⟨ht, hp, rfl⟩)
    · next hp => exact .inr (.inr ⟨ht, hp, rfl⟩)
  · next ht => exact .inl ⟨Bool.eq_false_iff.2 ht, rfl⟩

theorem edgeCapture_cases (k : Capture) :
    (k.armed = false ∧ edgeCapture c k = k)
    ∨ (k.armed = true ∧ k.lastEdge = false ∧ edgeCapture c k = risingEdge k)
    ∨ (k.armed = true ∧ k.lastEdge = true ∧ edgeCapture c k = fallingEdge c k) := by
  unfold edgeCapture
  split
  · next ha =>
    split
    · next hl => exact .inr (.inr ⟨ha, hl, rfl⟩)
    · next hl => exact .inr (.inl ⟨ha, Bool.eq_false_iff.2 hl, rfl⟩)
  · next ha => exact .inl ⟨Bool.eq_false_iff.2 ha, rfl⟩

theorem receiveByte_cases (b : Byte) (r : Receive) :
    (r.en = false ∧ receiveByte c b r = r)
    ∨ (r.en = true ∧ b = sentinel ∧ receiveByte c b r = closeFrame r)
    ∨ (r.en = true ∧ b ≠ sentinel ∧ receiveByte c b r = storeByte c b r) := by
  unfold receiveByte
  split
  · next he =>
    split
    · next hb => exact .inr (.inl ⟨he, hb, rfl⟩)
    · next hb => exact .inr (.inr ⟨he, hb, rfl⟩)
  · next he => exact .inl ⟨Bool.eq_false_iff.2 he, rfl⟩

theorem scanStep_cases (d : Display) :
    (activeCount c d = 0 ∧ scanStep c d = scanDark d)
    ∨ (activeCount c d ≠ 0 ∧ scanStep c d = scanLight c d (scanPlace d (activeCount c d)) (activeCount c d)) := by
  unfold scanStep
  split
  · next h => exact .inl ⟨h, rfl⟩
  · next h => exact .inr ⟨h, rfl⟩

end UnitCases

/-! ## What an operation can do to each unit (the columns "written by" of 10_state.md R21 to R29)

`XChange s i x` says that operation `i`, performed in the state `s`, can leave the unit X as `x`. -/

section Changes
variable (s : State)

inductive CaptureChange : Instr → Capture → Prop
  | keep {i} : CaptureChange i s.cap
  | reset : CaptureChange .reset (State.initial s.cfg).cap
  | tick : CaptureChange .tick (tickCapture s.cfg s.cap)
  | trigger : CaptureChange .trigger (triggerCapture s.cfg s.cap)
  | edge : CaptureChange .edge (edgeCapture s.cfg s.cap)

inductive FilterChange : Instr → Filter → Prop
  | keep {i} : FilterChange i s.filter
  | reset : FilterChange .reset (State.initial s.cfg).filter
  | dist : FilterChange .dist { s.filter with dist := distanceOf s.cfg s.cap.travel }
  | push {ch v} : FilterChange (.push ch v) (pushSample ch v s).filter
  | pushd {ch} : FilterChange (.pushd ch) (pushSample ch s.filter.dist s).filter

inductive AlarmChange : Instr → Alarm → Prop
  | keep {i} : AlarmChange i s.alarm
  | reset : AlarmChange .reset (State.initial s.cfg).alarm
  | level {d} : AlarmChange (.level d) (soundLevel d s).alarm
  | levelf {ch} : AlarmChange (.levelf ch) (soundLevel (s.chan ch.toNat).filt s).alarm
  | presetNext : AlarmChange .presetNext { s.alarm with presetIdx := nextPreset s.alarm.presetIdx }

inductive FrameChange : Instr → List Byte → Prop
  | keep {i} : FrameChange i s.frame
  | reset : FrameChange .reset (State.initial s.cfg).frame
  | enc {m v} : FrameChange (.enc m v) (frameOf s.cfg m v)
  | encf {m ch} : FrameChange (.encf m ch) (frameOf s.cfg m (s.chan ch.toNat).filt)

inductive TransmitChange : Instr → Transmit → Prop
  | keep {i} : TransmitChange i s.tx
  | reset : TransmitChange .reset (State.initial s.cfg).tx
  | txarm : TransmitChange .txarm (armSend s.frame s.tx)
  | txev (h : s.tx.en = true) : TransmitChange .txev (sendByte s.cfg s.tx)

inductive ReceiveChange : Instr → Receive → Prop
  | keep {i} : ReceiveChange i s.rx
  | reset : ReceiveChange .reset (State.initial s.cfg).rx
  | rxev {b} : ReceiveChange (.rxev b) (receiveByte s.cfg b s.rx)
  | consume (h : s.rx.frameReady = true) : ReceiveChange .consume (releaseBuffer s.rx)

inductive DisplayChange : Instr → Display → Prop
  | keep {i} : DisplayChange i s.disp
  | reset : DisplayChange .reset (State.initial s.cfg).disp
  | consume : DisplayChange .consume (showFrame s.cfg s.rx.buf s.disp)
  | scan : DisplayChange .scan (scanStep s.cfg s.disp)

/-- Operation `i` takes `s` to `t` by a listed change of every unit. A unit that is not mentioned is kept. -/
structure UnitChanges (i : Instr) (t : State) : Prop where
  capture : CaptureChange s i t.cap := by exact .keep
  filter : FilterChange s i t.filter := by exact .keep
  alarm : AlarmChange s i t.alarm := by exact .keep
  frame : FrameChange s i t.frame := by exact .keep
  transmit : TransmitChange s i t.tx := by exact .keep
  receive : ReceiveChange s i t.rx := by exact .keep
  display : DisplayChange s i t.disp := by exact .keep

end Changes

theorem UnitChanges.of_pushSample {s : State} {i : Instr} {ch : ChannelNo} {v : Word}
    (hf : FilterChange s i (pushSample ch v s).filter) : UnitChanges s i (pushSample ch v s) := by
  rcases pushSample_cases ch v s with ⟨-, e⟩ | ⟨-, e⟩
  all_goals rw [e] at hf ⊢; exact { filter := hf }

/-- What an operation can do to the units: each operation changes its own and keeps the others. -/
theorem exec_changes {i : Instr} {s t : State} (h : exec i s = .next t) : UnitChanges s i t := by
  cases i
  all_goals injection h with h; subst h
  case reset => exact ⟨.reset, .reset, .reset, .reset, .reset, .reset, .reset⟩
  case rd => exact {}
  case tick => exact { capture := .tick }
  case trigger => exact { capture := .trigger }
  case edge => exact { capture := .edge }
  case dist => exact { filter := .dist }
  case push => exact .of_pushSample .push
  case pushd => exact .of_pushSample .pushd
  case level => exact { alarm := .level }
  case levelf =>
    split
    · exact { alarm := .levelf }
    · exact {}
  case presetNext => exact { alarm := .presetNext }
  case enc => exact { frame := .enc }
  case encf =>
    split
    · exact { frame := .encf }
    · exact {}
  case txarm => exact { transmit := .txarm }
  case txev =>
    split
    · next he => exact { transmit := .txev he }
    · exact {}
  case rxev => exact { receive := .rxev }
  case consume =>
    split
    · next hr => exact { receive := .consume hr, display := .consume }
    · exact {}
  case scan => exact { display := .scan }

/-! ## Every operation keeps the invariants (10_state.md R37) -/

section Capture
variable {c : Config} {k : Capture}

theorem CaptureInv.initial : CaptureInv c (State.initial c).cap where
  count_lt := Nat.two_pow_pos _
  start_lt := Nat.two_pow_pos _
  end_lt := Nat.two_pow_pos _
  travel_lt := Nat.two_pow_pos _
  pulse_le := Nat.zero_le _
  trig_iff := iff_of_false Bool.false_ne_true (Nat.lt_irrefl 0)
  trig_disarmed := fun _ => rfl

theorem CaptureInv.tick (htw : c.tw ≤ 16) (h : CaptureInv c k) : CaptureInv c (tickCapture c k) := by
  have hcount := truncTW_lt htw (k.count + 1)
  have hpulse : k.trig = true → (k.pulseCnt - 1).toNat = k.pulseCnt.toNat - 1 := fun ht => by
    have := h.trig_iff.1 ht
    bv_omega
  rcases tickCapture_cases c k with ⟨-, e⟩ | ⟨-, hp, e⟩ | ⟨ht, hp, e⟩ <;> rw [e]
  · exact { h with count_lt := hcount }
  · rw [hp]
    exact { h with
      count_lt := hcount
      pulse_le := Nat.zero_le _
      trig_iff := iff_of_false Bool.false_ne_true (Nat.lt_irrefl 0)
      trig_disarmed := fun hf => absurd hf Bool.false_ne_true }
  · have hle := h.pulse_le
    exact { h with
      count_lt := hcount
      pulse_le := by rw [hpulse ht]; omega
      trig_iff := iff_of_true ht (by bv_omega) }

theorem CaptureInv.trigger (ht : c.TrigTicksOk) (h : CaptureInv c k) : CaptureInv c (triggerCapture c k) := by
  have hp : (BitVec.ofNat 8 c.trigTicks).toNat = c.trigTicks := by
    rw [BitVec.toNat_ofNat]; exact Nat.mod_eq_of_lt (by omega)
  exact { h with
    count_lt := Nat.two_pow_pos _
    pulse_le := hp.le
    trig_iff := iff_of_true rfl (hp.symm ▸ ht.1)
    trig_disarmed := fun _ => rfl }

theorem CaptureInv.edge (htw : c.tw ≤ 16) (h : CaptureInv c k) : CaptureInv c (edgeCapture c k) := by
  rcases edgeCapture_cases c k with ⟨-, e⟩ | ⟨-, -, e⟩ | ⟨-, -, e⟩ <;> rw [e]
  · exact h
  · exact { h with start_lt := h.count_lt }
  · exact { h with end_lt := h.count_lt, travel_lt := truncTW_lt htw _ }

theorem CaptureChange.inv {s : State} {i : Instr} (hc : s.cfg.Legal) (h : CaptureInv s.cfg s.cap)
    (hk : CaptureChange s i k) : CaptureInv s.cfg k := by
  obtain ⟨htrig, ⟨-, htw⟩, -⟩ := id hc
  cases hk with
  | keep => exact h
  | reset => exact .initial
  | tick => exact h.tick htw
  | trigger => exact h.trigger htrig
  | edge => exact h.edge htw

end Capture

section Filter
variable {c : Config}

theorem ChannelInv.initial (hn : 1 ≤ c.n) : ChannelInv c (Channel.initial c) where
  head_lt := hn
  fcount_le := Nat.zero_le _
  unprimed_head := fun _ => rfl
  unprimed_zero := fun _ i _ _ => memRead_replicate_zero i _

/-- A push moves head and fill together until the ring is full, and writes no cell above the fill. -/
theorem ChannelInv.push {k : Channel} (hn : c.NOk) (h : ChannelInv c k) (ch : ChannelNo) (v : Word) :
    ChannelInv c (pushChannel c ch k v) := by
  obtain ⟨hn1, hn16⟩ := hn
  have hhead := pushChannel_head c ch k v hn1 hn16
  have hfill : (pushChannel c ch k v).fcount.toNat = min (k.fcount.toNat + 1) c.n :=
    pushChannel_fcount c ch k v hn16
  refine ⟨hhead ▸ Nat.mod_lt _ hn1, hfill ▸ Nat.min_le_right _ _, fun hlt => ?_, fun hlt i hi hin => ?_⟩
  all_goals rw [hfill] at hlt
  all_goals have hold := h.unprimed_head (by omega)
  · rw [hhead, hfill, hold, Nat.mod_eq_of_lt (by omega), Nat.min_eq_left (by omega)]
  · rw [hfill] at hi
    rw [pushChannel_ring, memRead_memWrite_ne _ _ _ _ (by omega)]
    exact h.unprimed_zero (by omega) i (by omega) hin

theorem FilterInv.initial (hc : c.Legal) : FilterInv c (State.initial c).filter where
  dist_le := Nat.zero_le _
  chans := fun k hk => by
    obtain ⟨-, -, -, ⟨hn, -⟩, -⟩ := hc
    rw [List.eq_of_mem_replicate hk]
    exact .initial hn

theorem FilterInv.dist {f : Filter} (h : FilterInv c f) (travel : Word) :
    FilterInv c { f with dist := distanceOf c travel } := by
  refine { h with dist_le := ?_ }
  rw [distanceOf, BitVec.toNat_ofNat]
  exact (Nat.mod_le _ _).trans (Nat.min_le_right _ _)

theorem FilterInv.pushSample {s : State} (hn : s.cfg.NOk) (hlen : s.filter.chans.length = s.cfg.nch)
    (h : FilterInv s.cfg s.filter) (ch : ChannelNo) (v : Word) : FilterInv s.cfg (pushSample ch v s).filter := by
  rcases pushSample_cases ch v s with ⟨hch, e⟩ | ⟨-, e⟩ <;> rw [e]
  · refine ⟨h.dist_le, fun k hk => ?_⟩
    rw [State.answer_filter, State.setChan_chans] at hk
    rcases List.mem_or_eq_of_mem_set hk with hk | rfl
    · exact h.chans k hk
    · exact (h.chans _ (State.chan_mem (hlen ▸ hch))).push hn ch v
  · exact h

theorem FilterChange.inv {s : State} {i : Instr} {f : Filter} (hc : s.cfg.Legal)
    (hlen : s.filter.chans.length = s.cfg.nch) (h : FilterInv s.cfg s.filter) (hf : FilterChange s i f) :
    FilterInv s.cfg f := by
  obtain ⟨-, -, -, hn, -⟩ := id hc
  cases hf with
  | keep => exact h
  | reset => exact .initial hc
  | dist => exact h.dist _
  | push => exact h.pushSample hn hlen _ _
  | pushd => exact h.pushSample hn hlen _ _

end Filter

section Alarm
variable {c : Config}

theorem AlarmInv.initial (hc : c.Legal) : AlarmInv c (State.initial c).alarm where
  level_le := Nat.zero_le _
  preset_le := Nat.zero_le _
  tone := by
    obtain ⟨-, -, -, -, -, -, -, -, htone⟩ := hc
    exact (Vector.getElem?_eq_getElem (show 0 < 6 by decide)).trans (congrArg some htone)

/-- The tone registers hold the pair of the level loaded (43_alarm.md R155). -/
theorem AlarmInv.loadLevel {a : Alarm} (h : AlarmInv c a) {l : Nat} (hl : l ≤ 5) : AlarmInv c (loadLevel c l a) := by
  have hnat : (BitVec.ofNat 3 l).toNat = l := by
    rw [BitVec.toNat_ofNat]; exact Nat.mod_eq_of_lt (by omega)
  have htone : c.tone[l]? = some (toneOf c l) := by
    simp only [toneOf, Vector.getElem?_eq_getElem (show l < 6 by omega), Option.getD_some]
  exact { preset_le := h.preset_le, level_le := hnat.trans_le hl, tone := (congrArg (c.tone[·]?) hnat).trans htone }

theorem nextPreset_le (i : BitVec 3) : (nextPreset i).toNat ≤ 4 := by
  rw [nextPreset, BitVec.toNat_ofNat]
  omega

theorem AlarmChange.inv {s : State} {i : Instr} {a : Alarm} (hc : s.cfg.Legal) (h : AlarmInv s.cfg s.alarm)
    (ha : AlarmChange s i a) : AlarmInv s.cfg a := by
  cases ha with
  | keep => exact h
  | reset => exact .initial hc
  | level => exact h.loadLevel (levelFor_le _ _)
  | levelf => exact h.loadLevel (levelFor_le _ _)
  | presetNext => exact { h with preset_le := nextPreset_le _ }

end Alarm

section Frame
variable {c : Config}

/-- A digit of a frame is an ASCII digit (30_encoding.md R87). -/
theorem digitByte_range (d : Nat) :
    0x30 ≤ BitVec.ofNat 8 (0x30 + d % 10) ∧ BitVec.ofNat 8 (0x30 + d % 10) ≤ 0x39 := by
  constructor <;> bv_omega

theorem countTag_range (v : Nat) :
    0x31 ≤ BitVec.ofNat 8 (0x30 + digitCount v) ∧ BitVec.ofNat 8 (0x30 + digitCount v) ≤ 0x34 := by
  obtain ⟨h1, h4⟩ := digitCount_range v
  constructor <;> bv_omega

theorem modeTagOf_ne_sentinel (h : c.ModeTagOk) (m : Bool) : modeTagOf c m ≠ sentinel := by
  cases m
  · exact h.1
  · exact h.2

section FrameOf
variable (c : Config) (m : Bool) (v : Word)

theorem frameOf_digit_range {i : Nat} (hi : i < 4) :
    0x30 ≤ memRead (frameOf c m v) i ∧ memRead (frameOf c m v) i ≤ 0x39 := by
  match i with
  | 0 | 1 | 2 | 3 => exact digitByte_range _

theorem frameOf_countTag :
    memRead (frameOf c m v) 4 = BitVec.ofNat 8 (0x30 + digitCount v.toNat) := rfl

theorem frameOf_modeTag (h : c.hasModeTag = true) : memRead (frameOf c m v) 5 = modeTagOf c m := by
  simp only [frameOf, digitWalk_four, if_pos h]
  rfl

theorem frameOf_last : memRead (frameOf c m v) (c.frameLen - 1) = sentinel := by
  simp only [frameOf, digitWalk_four, Config.frameLen]
  split <;> rfl

theorem builtFrame_frameOf (h : c.ModeTagOk) : BuiltFrame c (frameOf c m v) where
  digits := fun _ => frameOf_digit_range c m v
  tag := countTag_range _
  last := frameOf_last c m v
  only_last := fun i hi => by
    rcases Nat.lt_trichotomy i 4 with hdigit | rfl | hlater
    · have := frameOf_digit_range c m v hdigit
      bv_omega
    · have := countTag_range v.toNat
      rw [frameOf_countTag]
      bv_omega
    · have hmode : c.hasModeTag = true ∧ i = 5 := by
        simp only [Config.frameLen] at hi
        split at hi
        · next hm => exact ⟨hm, by omega⟩
        · omega
      rw [hmode.2, frameOf_modeTag c m v hmode.1]
      exact modeTagOf_ne_sentinel h m

end FrameOf

theorem FrameChange.inv {s : State} {i : Instr} {f : List Byte} (hc : s.cfg.Legal) (h : FrameInv s.cfg s.frame)
    (hf : FrameChange s i f) : FrameInv s.cfg f := by
  obtain ⟨-, -, -, -, -, -, htag, -⟩ := hc
  cases hf with
  | keep => exact h
  | reset => exact .inl rfl
  | enc => exact .inr (builtFrame_frameOf _ _ _ htag)
  | encf => exact .inr (builtFrame_frameOf _ _ _ htag)

end Frame

section Transmit
variable {c : Config} {x : Transmit}

theorem TransmitInv.initial : TransmitInv c (State.initial c).tx where
  idx_le := Nat.zero_le _
  sending := fun h => absurd h Bool.false_ne_true

theorem TransmitInv.arm (f : List Byte) : TransmitInv c (armSend f x) where
  idx_le := Nat.zero_le _
  sending := fun _ => by have := frameLen_range c; exact (show 0 < c.frameLen by omega)

theorem TransmitInv.send (h : TransmitInv c x) (he : x.en = true) : TransmitInv c (sendByte c x) := by
  have hlt := h.sending he
  have hidx : (x.idx + 1).toNat = x.idx.toNat + 1 := by
    have := frameLen_range c
    bv_omega
  refine ⟨hidx.trans_le hlt, fun hen => hidx.trans_lt (Nat.lt_of_le_of_ne hlt fun hlast => ?_)⟩
  simp [sendByte, hlast] at hen

theorem TransmitChange.inv {s : State} {i : Instr} (h : TransmitInv s.cfg s.tx) (hx : TransmitChange s i x) :
    TransmitInv s.cfg x := by
  cases hx with
  | keep => exact h
  | reset => exact .initial
  | txarm => exact .arm _
  | txev he => exact h.send he

end Transmit

section Receive
variable {c : Config} {r : Receive}

theorem ReceiveInv.initial (hc : c.RxCapOk) : ReceiveInv c (State.initial c).rx where
  idx_lt := by
    have := frameLen_range c
    have := hc.1
    simp only [Config.payloadLen] at this
    exact (show 0 < c.rxCap by omega)
  no_sentinel := fun h => absurd (List.eq_of_mem_replicate h) (by decide)
  ready_deaf := fun h => absurd h Bool.false_ne_true

theorem ReceiveInv.close (hc : 0 < c.rxCap) (h : ReceiveInv c r) : ReceiveInv c (closeFrame r) :=
  { h with idx_lt := hc, ready_deaf := fun _ => ⟨rfl, rfl⟩ }

/-- The index moves on within the capacity or wraps, and the byte stored is not the sentinel. -/
theorem ReceiveInv.store {b : Byte} (hc : c.rxCap ≤ 8) (h : ReceiveInv c r) (he : r.en = true) (hb : b ≠ sentinel) :
    ReceiveInv c (storeByte c b r) where
  idx_lt := by
    have hlt := h.idx_lt
    simp only [storeByte]
    split
    · exact Nat.zero_lt_of_lt hlt
    · bv_omega
  no_sentinel := fun hm => (List.mem_or_eq_of_mem_set hm).elim h.no_sentinel (hb ·.symm)
  ready_deaf := fun hr => absurd (h.ready_deaf hr).1 (by simp [he])

theorem ReceiveInv.release (h : ReceiveInv c r) : ReceiveInv c (releaseBuffer r) :=
  { h with ready_deaf := fun hr => absurd hr Bool.false_ne_true }

theorem ReceiveChange.inv {s : State} {i : Instr} (hc : s.cfg.RxCapOk) (h : ReceiveInv s.cfg s.rx)
    (hr : ReceiveChange s i r) : ReceiveInv s.cfg r := by
  cases hr with
  | keep => exact h
  | reset => exact .initial hc
  | @rxev b =>
    rcases receiveByte_cases s.cfg b s.rx with ⟨-, e⟩ | ⟨-, -, e⟩ | ⟨he, hb, e⟩ <;> rw [e]
    · exact h
    · exact h.close (Nat.zero_lt_of_lt h.idx_lt)
    · exact h.store hc.2 he hb
  | consume => exact h.release

end Receive

section Display
variable {c : Config} {d : Display}

theorem DisplayInv.dark_at_zero (hd : d.dsel = 0) (hs : d.seg = 0xFF) (hi : d.scanIdx = 0) : DisplayInv c d where
  one_line := .inl hd
  dark := fun _ => hs
  scan_lt := fun h => hi ▸ Nat.pos_of_ne_zero h

/-- A lit place is below the active count, so its line is one of the four and the next place is in range. -/
theorem DisplayInv.light {p k : Nat} (hp : p < k) (hk : activeCount c d = k) : DisplayInv c (scanLight c d p k) := by
  have hk4 : k ≤ 4 := hk ▸ activeCount_le c d
  have hnext : (p + 1) % k < k := Nat.mod_lt _ (by omega)
  have hline : ∀ p < 4, BitVec.ofNat 4 (2 ^ p) = 1 ∨ BitVec.ofNat 4 (2 ^ p) = 2 ∨ BitVec.ofNat 4 (2 ^ p) = 4
    ∨ BitVec.ofNat 4 (2 ^ p) = 8 := by decide
  have hlit : BitVec.ofNat 4 (2 ^ p) ≠ 0 := by
    rcases hline p (by omega) with e | e | e | e <;> rw [e] <;> decide
  exact {
    one_line := .inr (hline p (by omega))
    dark := fun h => absurd h hlit
    scan_lt := fun _ => by
      have e : activeCount c (scanLight c d p k) = k := hk
      rw [e]
      exact (Nat.mod_le _ _).trans_lt hnext }

theorem scanPlace_lt {k : Nat} (hk : k ≠ 0) : scanPlace d k < k := by
  unfold scanPlace
  split
  · assumption
  · exact Nat.pos_of_ne_zero hk

theorem DisplayChange.inv {s : State} {i : Instr} (h : DisplayInv s.cfg s.disp) (hd : DisplayChange s i d) :
    DisplayInv s.cfg d := by
  cases hd with
  | keep => exact h
  | reset => exact .dark_at_zero rfl rfl rfl
  | consume => exact .dark_at_zero rfl rfl rfl
  | scan =>
    rcases scanStep_cases s.cfg s.disp with ⟨-, e⟩ | ⟨hk, e⟩ <;> rw [e]
    · exact .dark_at_zero rfl rfl rfl
    · exact .light (scanPlace_lt hk) rfl

end Display

section Inv
variable {s t : State}

/-- The invariants speak of neither the pending inputs nor the outputs. -/
theorem State.Inv.with_io (h : s.Inv) (l : List Input) (o : Answer) : State.Inv { s with inputs := l, out := o } :=
  ⟨h.memory, h.capture, h.filter, h.alarm, h.frame, h.transmit, h.receive, h.display⟩

theorem State.Inv.chans_length (h : s.Inv) : s.filter.chans.length = s.cfg.nch :=
  ((Memory.wf_iff s).1 h.memory).1

theorem State.Inv.exec {i : Instr} (h : s.Inv) (hc : s.cfg.Legal) (e : exec i s = .next t) : t.Inv := by
  have hch := exec_changes e
  have hcfg : t.cfg = s.cfg := (exec_cfg_inputs e).1
  obtain ⟨-, -, -, -, -, -, -, hrx, -⟩ := id hc
  refine ⟨Memory.wf_exec h.memory e, ?_, ?_, ?_, ?_, ?_, ?_, ?_⟩ <;> rw [hcfg]
  · exact hch.capture.inv hc h.capture
  · exact hch.filter.inv hc h.chans_length h.filter
  · exact hch.alarm.inv hc h.alarm
  · exact hch.frame.inv hc h.frame
  · exact hch.transmit.inv h.transmit
  · exact hch.receive.inv hrx h.receive
  · exact hch.display.inv h.display

end Inv

/-- Settles O12: a step is idle or one operation, and every operation keeps the invariants (`State.Inv.exec`). -/
theorem stepKeepsTheInvariants : Obligations.StepKeepsTheInvariants := by
  intro s t hc hinv hstep
  rcases step_cases hstep with ⟨-, rfl⟩ | ⟨_, rest, _, -, -, -, he⟩
  · exact hinv.with_io s.inputs _
  · exact (hinv.with_io rest s.out).exec hc he

/-- The reset state of a legal configuration meets the invariants, unit by unit. -/
theorem State.Inv.initial {c : Config} (hc : c.Legal) : (State.initial c).Inv := by
  obtain ⟨-, -, -, -, -, -, -, hrx, -⟩ := id hc
  exact ⟨Memory.wf_initial c, .initial, .initial hc, .initial hc, .inl rfl, .initial, .initial hrx,
    .dark_at_zero rfl rfl rfl⟩

/-- Settles O11: the default configuration meets each constraint, and `State.reset` is defined as its reset state. -/
theorem resetMeetsTheInvariants : Obligations.ResetMeetsTheInvariants :=
  ⟨fun _ hc => .initial hc, by decide, rfl⟩

/-! ## Which flags an operation changes (10_state.md R25) -/

section Keeps
variable (c : Config) (k : Capture)

theorem tickCapture_keeps :
    (tickCapture c k).start = k.start ∧ (tickCapture c k).end_ = k.end_ ∧ (tickCapture c k).travel = k.travel
    ∧ (tickCapture c k).complete = k.complete ∧ (tickCapture c k).lastEdge = k.lastEdge := by
  rcases tickCapture_cases c k with ⟨-, e⟩ | ⟨-, -, e⟩ | ⟨-, -, e⟩ <;> rw [e] <;> exact ⟨rfl, rfl, rfl, rfl, rfl⟩

theorem edgeCapture_keeps :
    (edgeCapture c k).count = k.count ∧ (edgeCapture c k).pulseCnt = k.pulseCnt
    ∧ (edgeCapture c k).armed = k.armed ∧ (edgeCapture c k).trig = k.trig := by
  rcases edgeCapture_cases c k with ⟨-, e⟩ | ⟨-, -, e⟩ | ⟨-, -, e⟩ <;> rw [e] <;> exact ⟨rfl, rfl, rfl, rfl⟩

end Keeps

section Flags
variable {s : State} {i : Instr}

section Capture
variable {k : Capture}

theorem CaptureChange.complete (h : CaptureChange s i k) (hne : k.complete ≠ s.cap.complete) :
    (k.complete = true ∧ i = .edge ∧ s.cap.lastEdge = true)
    ∨ (k.complete = false ∧ (i = .trigger ∨ i = .reset)) := by
  cases h with
  | keep => exact absurd rfl hne
  | reset => exact .inr ⟨rfl, .inr rfl⟩
  | tick =>
    obtain ⟨-, -, -, hcomplete, -⟩ := tickCapture_keeps s.cfg s.cap
    exact absurd hcomplete hne
  | trigger => exact .inr ⟨rfl, .inl rfl⟩
  | edge =>
    rcases edgeCapture_cases s.cfg s.cap with ⟨-, e⟩ | ⟨-, -, e⟩ | ⟨-, hl, e⟩ <;> rw [e] at hne ⊢
    · exact absurd rfl hne
    · exact absurd rfl hne
    · exact .inl ⟨rfl, rfl, hl⟩

theorem CaptureChange.armed (h : CaptureChange s i k) (hne : k.armed ≠ s.cap.armed) :
    (k.armed = true ∧ i = .tick ∧ s.cap.trig = true) ∨ (k.armed = false ∧ (i = .trigger ∨ i = .reset)) := by
  cases h with
  | keep => exact absurd rfl hne
  | reset => exact .inr ⟨rfl, .inr rfl⟩
  | tick =>
    rcases tickCapture_cases s.cfg s.cap with ⟨-, e⟩ | ⟨ht, -, e⟩ | ⟨-, -, e⟩ <;> rw [e] at hne ⊢
    · exact absurd rfl hne
    · exact .inl ⟨rfl, rfl, ht⟩
    · exact absurd rfl hne
  | trigger => exact .inr ⟨rfl, .inl rfl⟩
  | edge =>
    obtain ⟨-, -, harmed, -⟩ := edgeCapture_keeps s.cfg s.cap
    exact absurd harmed hne

theorem CaptureChange.lastEdge (h : CaptureChange s i k) (hne : k.lastEdge ≠ s.cap.lastEdge) :
    (k.lastEdge = true ∧ i = .edge)
    ∨ (k.lastEdge = false ∧ (i = .edge ∨ (i = .trigger ∧ s.cfg.trigClearsEdge = true) ∨ i = .reset)) := by
  cases h with
  | keep => exact absurd rfl hne
  | reset => exact .inr ⟨rfl, .inr (.inr rfl)⟩
  | tick =>
    obtain ⟨-, -, -, -, hlast⟩ := tickCapture_keeps s.cfg s.cap
    exact absurd hlast hne
  | trigger =>
    simp only [triggerCapture] at hne
    split at hne
    · next hclears => exact .inr ⟨if_pos hclears, .inr (.inl ⟨rfl, hclears⟩)⟩
    · exact absurd rfl hne
  | edge =>
    rcases edgeCapture_cases s.cfg s.cap with ⟨-, e⟩ | ⟨-, -, e⟩ | ⟨-, -, e⟩ <;> rw [e] at hne ⊢
    · exact absurd rfl hne
    · exact .inl ⟨rfl, rfl⟩
    · exact .inr ⟨rfl, .inl rfl⟩

theorem CaptureChange.trig (h : CaptureChange s i k) (hne : k.trig ≠ s.cap.trig) :
    (k.trig = true ∧ i = .trigger) ∨ (k.trig = false ∧ (i = .tick ∨ i = .reset)) := by
  cases h with
  | keep => exact absurd rfl hne
  | reset => exact .inr ⟨rfl, .inr rfl⟩
  | tick =>
    rcases tickCapture_cases s.cfg s.cap with ⟨-, e⟩ | ⟨-, -, e⟩ | ⟨-, -, e⟩ <;> rw [e] at hne ⊢
    · exact absurd rfl hne
    · exact .inr ⟨rfl, .inl rfl⟩
    · exact absurd rfl hne
  | trigger => exact .inl ⟨rfl, rfl⟩
  | edge =>
    obtain ⟨-, -, -, htrig⟩ := edgeCapture_keeps s.cfg s.cap
    exact absurd htrig hne

end Capture

theorem TransmitChange.en {x : Transmit} (h : TransmitChange s i x) (hne : x.en ≠ s.tx.en) :
    (x.en = true ∧ i = .txarm)
    ∨ (x.en = false ∧ ((i = .txev ∧ s.tx.idx.toNat + 1 = s.cfg.frameLen) ∨ i = .reset)) := by
  cases h with
  | keep => exact absurd rfl hne
  | reset => exact .inr ⟨rfl, .inr rfl⟩
  | txarm => exact .inl ⟨rfl, rfl⟩
  | txev =>
    simp only [sendByte] at hne
    split at hne
    · next hlast => exact .inr ⟨if_pos hlast, .inl ⟨rfl, hlast⟩⟩
    · exact absurd rfl hne

theorem ReceiveChange.en {r : Receive} (h : ReceiveChange s i r) (hne : r.en ≠ s.rx.en) :
    (r.en = true ∧ ((i = .consume ∧ s.rx.frameReady = true) ∨ i = .reset)) ∨ (r.en = false ∧ i = .rxev 0x2C) := by
  cases h with
  | keep => exact absurd rfl hne
  | reset => exact .inl ⟨rfl, .inr rfl⟩
  | @rxev b =>
    rcases receiveByte_cases s.cfg b s.rx with ⟨-, e⟩ | ⟨-, rfl, e⟩ | ⟨-, -, e⟩ <;> rw [e] at hne ⊢
    · exact absurd rfl hne
    · exact .inr ⟨rfl, rfl⟩
    · exact absurd rfl hne
  | consume hr => exact .inl ⟨rfl, .inl ⟨rfl, hr⟩⟩

theorem ReceiveChange.frameReady {r : Receive} (h : ReceiveChange s i r) (hne : r.frameReady ≠ s.rx.frameReady) :
    (r.frameReady = true ∧ i = .rxev 0x2C) ∨ (r.frameReady = false ∧ (i = .consume ∨ i = .reset)) := by
  cases h with
  | keep => exact absurd rfl hne
  | reset => exact .inr ⟨rfl, .inr rfl⟩
  | @rxev b =>
    rcases receiveByte_cases s.cfg b s.rx with ⟨-, e⟩ | ⟨-, rfl, e⟩ | ⟨-, -, e⟩ <;> rw [e] at hne ⊢
    · exact absurd rfl hne
    · exact .inl ⟨rfl, rfl⟩
    · exact absurd rfl hne
  | consume => exact .inr ⟨rfl, .inl rfl⟩

end Flags

/-- Settles O13: flag by flag, from what an operation can do to the flag's unit. -/
theorem flagsChangeOnlyAsListed : Obligations.FlagsChangeOnlyAsListed := by
  intro i s t h
  have hch := exec_changes h
  exact ⟨hch.capture.complete, hch.capture.armed, hch.capture.lastEdge, hch.capture.trig, hch.transmit.en,
    hch.receive.en, hch.receive.frameReady⟩

/-! ## Which registers and buffers an operation changes (10_state.md R21 to R23, R28, R29, R36) -/

section Registers
variable {s : State} {i : Instr} (hi : i ≠ .reset)
include hi

theorem CaptureChange.registers {k : Capture} (h : CaptureChange s i k) :
    (i ≠ .tick → i ≠ .trigger → k.count = s.cap.count ∧ k.pulseCnt = s.cap.pulseCnt)
    ∧ (i ≠ .edge → k.start = s.cap.start ∧ k.end_ = s.cap.end_ ∧ k.travel = s.cap.travel) := by
  cases h with
  | keep => exact ⟨fun _ _ => ⟨rfl, rfl⟩, fun _ => ⟨rfl, rfl, rfl⟩⟩
  | reset => exact absurd rfl hi
  | tick =>
    obtain ⟨hstart, hend, htravel, -, -⟩ := tickCapture_keeps s.cfg s.cap
    exact ⟨fun ht => absurd rfl ht, fun _ => ⟨hstart, hend, htravel⟩⟩
  | trigger => exact ⟨fun _ ht => absurd rfl ht, fun _ => ⟨rfl, rfl, rfl⟩⟩
  | edge =>
    obtain ⟨hcount, hpulse, -, -⟩ := edgeCapture_keeps s.cfg s.cap
    exact ⟨fun _ _ => ⟨hcount, hpulse⟩, fun he => absurd rfl he⟩

theorem FilterChange.registers {f : Filter} (h : FilterChange s i f) :
    (i ≠ .dist → f.dist = s.filter.dist)
    ∧ ((∀ ch v, i ≠ .push ch v) → (∀ ch, i ≠ .pushd ch) → f.chans = s.filter.chans) := by
  have hdist : ∀ ch v, (pushSample ch v s).filter.dist = s.filter.dist := fun ch v => by
    rcases pushSample_cases ch v s with ⟨-, e⟩ | ⟨-, e⟩ <;> rw [e] <;> rfl
  cases h with
  | keep => exact ⟨fun _ => rfl, fun _ _ => rfl⟩
  | reset => exact absurd rfl hi
  | dist => exact ⟨fun hd => absurd rfl hd, fun _ _ => rfl⟩
  | push => exact ⟨fun _ => hdist _ _, fun hp _ => absurd rfl (hp _ _)⟩
  | pushd => exact ⟨fun _ => hdist _ _, fun _ hp => absurd rfl (hp _)⟩

theorem AlarmChange.registers {a : Alarm} (h : AlarmChange s i a) :
    ((∀ d, i ≠ .level d) → (∀ ch, i ≠ .levelf ch) →
      a.level = s.alarm.level ∧ a.pwmPeriod = s.alarm.pwmPeriod ∧ a.pwmDuty = s.alarm.pwmDuty)
    ∧ (i ≠ .presetNext → a.presetIdx = s.alarm.presetIdx) := by
  cases h with
  | keep => exact ⟨fun _ _ => ⟨rfl, rfl, rfl⟩, fun _ => rfl⟩
  | reset => exact absurd rfl hi
  | level => exact ⟨fun hl _ => absurd rfl (hl _), fun _ => rfl⟩
  | levelf => exact ⟨fun _ hl => absurd rfl (hl _), fun _ => rfl⟩
  | presetNext => exact ⟨fun _ _ => ⟨rfl, rfl, rfl⟩, fun hp => absurd rfl hp⟩

theorem FrameChange.kept {f : List Byte} (h : FrameChange s i f) (he : ∀ m v, i ≠ .enc m v)
    (hf : ∀ m ch, i ≠ .encf m ch) : f = s.frame := by
  cases h with
  | keep => rfl
  | reset => exact absurd rfl hi
  | enc => exact absurd rfl (he _ _)
  | encf => exact absurd rfl (hf _ _)

theorem TransmitChange.registers {x : Transmit} (h : TransmitChange s i x) :
    (i ≠ .txarm → x.buf = s.tx.buf) ∧ (i ≠ .txarm → i ≠ .txev → x.idx = s.tx.idx)
    ∧ (i ≠ .txev → x.data = s.tx.data ∧ x.wireOut = s.tx.wireOut) := by
  cases h with
  | keep => exact ⟨fun _ => rfl, fun _ _ => rfl, fun _ => ⟨rfl, rfl⟩⟩
  | reset => exact absurd rfl hi
  | txarm => exact ⟨fun ha => absurd rfl ha, fun ha => absurd rfl ha, fun _ => ⟨rfl, rfl⟩⟩
  | txev => exact ⟨fun _ => rfl, fun _ he => absurd rfl he, fun he => absurd rfl he⟩

theorem ReceiveChange.registers {r : Receive} (h : ReceiveChange s i r) (hb : ∀ b, i ≠ .rxev b) :
    r.buf = s.rx.buf ∧ r.idx = s.rx.idx := by
  cases h with
  | keep => exact ⟨rfl, rfl⟩
  | reset => exact absurd rfl hi
  | rxev => exact absurd rfl (hb _)
  | consume => exact ⟨rfl, rfl⟩

theorem DisplayChange.registers {d : Display} (h : DisplayChange s i d) :
    (i ≠ .consume → d.digit = s.disp.digit ∧ d.tag = s.disp.tag ∧ d.mode = s.disp.mode)
    ∧ (i ≠ .scan → i ≠ .consume → d.scanIdx = s.disp.scanIdx ∧ d.seg = s.disp.seg ∧ d.dsel = s.disp.dsel) := by
  cases h with
  | keep => exact ⟨fun _ => ⟨rfl, rfl, rfl⟩, fun _ _ => ⟨rfl, rfl, rfl⟩⟩
  | reset => exact absurd rfl hi
  | consume => exact ⟨fun hc => absurd rfl hc, fun _ hc => absurd rfl hc⟩
  | scan =>
    refine ⟨fun _ => ?_, fun hs => absurd rfl hs⟩
    rcases scanStep_cases s.cfg s.disp with ⟨-, e⟩ | ⟨-, e⟩ <;> rw [e] <;> exact ⟨rfl, rfl, rfl⟩

end Registers

/-- Settles O14: unit by unit, from what an operation other than RESET can do to the unit. -/
theorem registersChangeOnlyByTheirWriters : Obligations.RegistersChangeOnlyByTheirWriters := by
  intro i s t h hi
  have hch := exec_changes h
  obtain ⟨hcount, hlatch⟩ := hch.capture.registers hi
  obtain ⟨hdist, hchans⟩ := hch.filter.registers hi
  obtain ⟨hlevel, hpreset⟩ := hch.alarm.registers hi
  obtain ⟨hbuf, hidx, hsent⟩ := hch.transmit.registers hi
  obtain ⟨hshown, hscan⟩ := hch.display.registers hi
  exact ⟨hcount, hlatch, hdist, hchans, hlevel, hpreset, hch.frame.kept hi, hbuf, hidx, hsent,
    hch.receive.registers hi, hshown, hscan⟩

/-! ## STATUS (10_state.md R26) -/

/-- RD returns `regread` of its number and changes nothing else (40_system.md R101). -/
theorem ReadsAs.of_regRead {s : State} {n : Nat} {v : Word} (h : regRead s (BitVec.ofNat 8 n) = v) :
    ReadsAs s n v := by
  subst h
  rfl

theorem readsAs_status (s : State) : ReadsAs s 0x00 (statusWord s) := rfl

theorem statusWord_bits (s : State) :
    (statusWord s).getLsbD 0 = s.cap.complete ∧ (statusWord s).getLsbD 1 = s.cap.armed
    ∧ (statusWord s).getLsbD 2 = s.cap.lastEdge ∧ (statusWord s).getLsbD 3 = s.cap.trig
    ∧ (statusWord s).getLsbD 4 = s.tx.en ∧ (statusWord s).getLsbD 5 = s.rx.en
    ∧ (statusWord s).getLsbD 6 = s.rx.frameReady ∧ ∀ i, 7 ≤ i → (statusWord s).getLsbD i = false := by
  simp only [statusWord, BitVec.getLsbD_append]
  refine ⟨?_, ?_, ?_, ?_, ?_, ?_, ?_, fun i hi => ?_⟩
  case refine_8 => simp (disch := omega) only [if_neg, BitVec.getLsbD_zero]
  all_goals simp

/-- After reset only `rx_en`, bit 5, is set. -/
theorem statusWord_initial (c : Config) : statusWord (State.initial c) = 0x0020 := by
  simp [statusWord, State.initial]

/-- Settles O16: RD 0x00 returns `statusWord`, whose bits are the flags. -/
theorem statusWordHoldsTheSevenFlags : Obligations.StatusWordHoldsTheSevenFlags :=
  ⟨fun s => ⟨statusWord s, readsAs_status s, statusWord_bits s⟩,
    fun c => statusWord_initial c ▸ readsAs_status (State.initial c)⟩

/-! ## RESET (10_state.md R33, 40_system.md R100) -/

/-- Every channel is empty and unprimed after reset. -/
theorem initial_channel_values {c : Config} {k : Channel} (hk : k ∈ (State.initial c).filter.chans) :
    k.ring = List.replicate c.n 0 ∧ k.head = 0 ∧ k.fcount = 0 ∧ k.filt = 0 := by
  rw [List.eq_of_mem_replicate hk]
  exact ⟨rfl, rfl, rfl, rfl⟩

/-- Settles O15: the pin performs RESET, and RESET answers the reset state with the pending inputs of before. -/
theorem resetLeavesTheResetValues : Obligations.ResetLeavesTheResetValues := by
  refine ⟨rfl, fun s rest hc hin => (step_of_input hin).trans (perform_of_legal hc rfl), fun s => ?_⟩
  have hstatus : ReadsAs { State.initial s.cfg with inputs := s.inputs } 0x00 0x0020 :=
    .of_regRead (statusWord_initial s.cfg)
  exact ⟨{ State.initial s.cfg with inputs := s.inputs }, rfl, rfl, rfl, rfl,
    ⟨rfl, rfl, rfl, rfl, rfl⟩, ⟨rfl, rfl, rfl, rfl⟩, rfl, List.length_replicate, fun _ => initial_channel_values,
    ⟨rfl, rfl, rfl, rfl⟩, ⟨rfl, rfl, rfl⟩, ⟨rfl, rfl, rfl⟩, ⟨rfl, rfl, rfl, rfl⟩, ⟨rfl, rfl, rfl, rfl⟩, ⟨rfl, rfl⟩,
    hstatus⟩

/-! ## RD by register number (10_state.md R27, 40_system.md R101) -/

section RegRead
variable (s : State) {ch i : Nat}

theorem channelReg_of_lt (f : Channel → Word) (h : ch < s.cfg.nch) : channelReg s ch f = f (s.chan ch) := if_pos h

theorem channelReg_of_not_lt (f : Channel → Word) (h : ¬ ch < s.cfg.nch) : channelReg s ch f = 0 := if_neg h

theorem bufferReg_of_lt {size : Nat} (buf : List Byte) (h : i < size) :
    bufferReg buf size i = (memRead buf i).setWidth 16 := if_pos h

theorem bufferReg_of_not_lt {size : Nat} (buf : List Byte) (h : ¬ i < size) : bufferReg buf size i = 0 := if_neg h

theorem ringReg_of_lt {n : Nat} (k : Channel) (h : i < n) : ringReg n i k = memRead k.ring i := if_pos h

theorem ringReg_of_not_lt {n : Nat} (k : Channel) (h : ¬ i < n) : ringReg n i k = 0 := if_neg h

/-- The three ranges of channel registers. -/
theorem regRead_channel (h : ch < 4) :
    regRead s (BitVec.ofNat 8 (0x10 + ch)) = channelReg s ch (fun k => k.filt)
    ∧ regRead s (BitVec.ofNat 8 (0x14 + ch)) = channelReg s ch (fun k => k.fcount.setWidth 16)
    ∧ regRead s (BitVec.ofNat 8 (0x18 + ch)) = channelReg s ch (fun k => k.head.setWidth 16) := by
  refine ⟨?_, ?_, ?_⟩ <;>
    simp (disch := omega) only [regRead, BitVec.toNat_ofNat, Nat.mod_eq_of_lt, if_neg, if_pos, Nat.add_sub_cancel_left]

/-- The range of ring cells, 16 numbers to a channel. -/
theorem regRead_ring (h : ch < 4) (hi : i < 16) :
    regRead s (BitVec.ofNat 8 (0x80 + 16 * ch + i)) = channelReg s ch (ringReg s.cfg.n i) := by
  have hch : (0x80 + 16 * ch + i - 0x80) / 16 = ch := by omega
  have hcell : (0x80 + 16 * ch + i - 0x80) % 16 = i := by omega
  simp (disch := omega) only [regRead, BitVec.toNat_ofNat, Nat.mod_eq_of_lt, if_neg, if_pos, hch, hcell]

theorem regRead_preset (h : i < 5) :
    regRead s (BitVec.ofNat 8 (0x28 + i)) = (presetTable s.cfg s.alarm.presetIdx)[i]?.getD 0 := by
  simp (disch := omega) only [regRead, BitVec.toNat_ofNat, Nat.mod_eq_of_lt, if_neg, if_pos, Nat.add_sub_cancel_left]

/-- The ranges of the two frame buffers, as far as a frame can reach. -/
theorem regRead_frame (h : i < 7) :
    regRead s (BitVec.ofNat 8 (0x30 + i)) = bufferReg s.frame s.cfg.frameLen i
    ∧ regRead s (BitVec.ofNat 8 (0x38 + i)) = bufferReg s.tx.buf s.cfg.frameLen i := by
  constructor <;>
    simp (disch := omega) only [regRead, BitVec.toNat_ofNat, Nat.mod_eq_of_lt, if_neg, if_pos, Nat.add_sub_cancel_left]

theorem regRead_receive (h : i < 8) :
    regRead s (BitVec.ofNat 8 (0x40 + i)) = bufferReg s.rx.buf s.cfg.rxCap i := by
  simp (disch := omega) only [regRead, BitVec.toNat_ofNat, Nat.mod_eq_of_lt, if_neg, if_pos, Nat.add_sub_cancel_left]

theorem regRead_digit (h : i < 4) :
    regRead s (BitVec.ofNat 8 (0x50 + i)) = (s.disp.digit[i]?.getD 0).setWidth 16 := by
  simp (disch := omega) only [regRead, BitVec.toNat_ofNat, Nat.mod_eq_of_lt, if_neg, if_pos, Nat.add_sub_cancel_left]

/-- A number that R27 gives no register reads 0: it lies in no range, or in one beyond the cells there are. -/
theorem regRead_of_unassigned {n : Nat} (hn : n < 256) (h : ¬ AssignedNumber s.cfg n) :
    regRead s (BitVec.ofNat 8 n) = 0 := by
  have hsingle : ∀ m, m ≤ 0x06 ∨ (0x20 ≤ m ∧ m ≤ 0x23) ∨ m = 0x3F ∨ m = 0x48 ∨ m = 0x49 ∨ (0x50 ≤ m ∧ m ≤ 0x58) →
      n ≠ m := by
    rintro m hm rfl
    refine h ?_
    rcases hm with hm | hm | hm | hm | hm | hm <;> simp [AssignedNumber, hm]
  have hnat : (BitVec.ofNat 8 n).toNat = n := (BitVec.toNat_ofNat n 8).trans (Nat.mod_eq_of_lt hn)
  simp only [AssignedNumber, not_or] at h
  obtain ⟨-, hfilt, hfcount, hhead, -, hpreset, hframe, htx, -, hrx, -, -, hdisp, hring⟩ := h
  have hdigit : ¬ (0x50 ≤ n ∧ n ≤ 0x53) := fun ⟨hl, hu⟩ => hdisp ⟨hl, hu.trans (by decide)⟩
  simp (disch := decide) only [regRead, hnat, hsingle, hpreset, hdigit, if_false]
  split_ifs with hr hr hr hr hr hr hr
  · exact channelReg_of_not_lt s _ fun hlt => hfilt ⟨hr.1, by omega⟩
  · exact channelReg_of_not_lt s _ fun hlt => hfcount ⟨hr.1, by omega⟩
  · exact channelReg_of_not_lt s _ fun hlt => hhead ⟨hr.1, by omega⟩
  · exact bufferReg_of_not_lt _ fun hlt => hframe ⟨hr.1, by omega⟩
  · exact bufferReg_of_not_lt _ fun hlt => htx ⟨hr.1, by omega⟩
  · exact bufferReg_of_not_lt _ fun hlt => hrx ⟨hr.1, by omega⟩
  · by_cases hch : (n - 0x80) / 16 < s.cfg.nch
    · rw [channelReg_of_lt s _ hch]
      exact ringReg_of_not_lt _ fun hcell => hring ⟨_, _, hch, hcell, by omega⟩
    · exact channelReg_of_not_lt s _ hch
  · rfl

theorem presetTable_of_lt (c : Config) {idx : BitVec 3} (h : idx.toNat < 5) :
    presetTable c idx = c.presetBank[idx.toNat] := by
  rw [presetTable, Vector.getElem?_eq_getElem h, Option.getD_some]

end RegRead

section Reads
variable {s : State}

theorem readsAs_channel (hnch : s.cfg.nch ≤ 4) (hn : s.cfg.n ≤ 16) {ch : Nat} (h : ch < s.cfg.nch) :
    ReadsAs s (0x10 + ch) (s.chan ch).filt ∧ ReadsAs s (0x14 + ch) ((s.chan ch).fcount.setWidth 16)
    ∧ ReadsAs s (0x18 + ch) ((s.chan ch).head.setWidth 16)
    ∧ ∀ i, i < s.cfg.n → ReadsAs s (0x80 + 16 * ch + i) (memRead (s.chan ch).ring i) := by
  have hch := h.trans_le hnch
  obtain ⟨hfilt, hfcount, hhead⟩ := regRead_channel s hch
  rw [channelReg_of_lt s _ h] at hfilt hfcount hhead
  refine ⟨.of_regRead hfilt, .of_regRead hfcount, .of_regRead hhead, fun i hi => .of_regRead ?_⟩
  rw [regRead_ring s hch (hi.trans_le hn), channelReg_of_lt s _ h, ringReg_of_lt _ hi]

theorem readsAs_preset (h : s.alarm.presetIdx.toNat < 5) {i : Nat} (hi : i < 5) :
    ReadsAs s (0x28 + i) s.cfg.presetBank[s.alarm.presetIdx.toNat][i] := by
  refine .of_regRead ?_
  rw [regRead_preset s hi, presetTable_of_lt s.cfg h, Vector.getElem?_eq_getElem hi, Option.getD_some]

theorem readsAs_frame {i : Nat} (hi : i < s.cfg.frameLen) :
    ReadsAs s (0x30 + i) ((memRead s.frame i).setWidth 16)
    ∧ ReadsAs s (0x38 + i) ((memRead s.tx.buf i).setWidth 16) := by
  obtain ⟨hframe, htx⟩ := regRead_frame s (hi.trans_le (frameLen_range s.cfg).2)
  rw [bufferReg_of_lt _ hi] at hframe htx
  exact ⟨.of_regRead hframe, .of_regRead htx⟩

theorem readsAs_receive (hcap : s.cfg.rxCap ≤ 8) {i : Nat} (hi : i < s.cfg.rxCap) :
    ReadsAs s (0x40 + i) ((memRead s.rx.buf i).setWidth 16) :=
  .of_regRead ((regRead_receive s (hi.trans_le hcap)).trans (bufferReg_of_lt _ hi))

theorem readsAs_digit {p : Nat} (hp : p < 4) : ReadsAs s (0x50 + p) (s.disp.digit[p].setWidth 16) := by
  refine .of_regRead ?_
  rw [regRead_digit s hp, Vector.getElem?_eq_getElem hp, Option.getD_some]

end Reads

/-- Settles O17: a single register by evaluating `regRead` at its number, a range by its lemma. -/
theorem readReturnsTheNumberedRegister : Obligations.ReadReturnsTheNumberedRegister := by
  refine ⟨fun _ => rfl, fun s hc => ?_⟩
  obtain ⟨-, -, -, ⟨-, hn⟩, ⟨-, hnch⟩, -, -, ⟨-, hcap⟩, -⟩ := hc
  exact ⟨readsAs_status s, rfl, rfl, rfl, rfl, rfl, rfl, fun _ => readsAs_channel hnch hn, rfl, rfl, rfl, rfl,
    fun h _ => readsAs_preset h, fun _ => readsAs_frame, rfl, fun _ => readsAs_receive hcap, rfl, rfl,
    fun _ => readsAs_digit, rfl, rfl, rfl, rfl, rfl,
    fun _ hlt h => .of_regRead (regRead_of_unassigned s hlt h)⟩

end Sys2Proof.Machine

/-! # Memory: SEND through the transmit buffer (20_memory.md R70, 30_encoding.md R96) -/

namespace Sys2Proof.Machine

/-- A transmit unit with `bytes` still to send: they are the buffer's cells from `tx_idx` on, and the unit is armed
while there are any (45_transport.md R180, R181). -/
structure Unsent (c : Config) (x : Transmit) (bytes : List Byte) : Prop where
  cells : x.buf.drop x.idx.toNat = bytes
  count : x.idx.toNat + bytes.length = c.frameLen
  armed_iff : x.en = true ↔ bytes ≠ []

section Unsent
variable {c : Config} {x : Transmit} {b : Byte} {bytes : List Byte}

theorem Unsent.arm {f : List Byte} (x : Transmit) (h : f.length = c.frameLen) : Unsent c (armSend f x) f where
  cells := rfl
  count := (Nat.zero_add _).trans h
  armed_iff := by
    have := frameLen_range c
    exact iff_of_true rfl (List.ne_nil_of_length_pos (by omega))

theorem Unsent.armed (h : Unsent c x (b :: bytes)) : x.en = true := h.armed_iff.2 (List.cons_ne_nil _ _)

theorem Unsent.nextTxByte_eq (h : Unsent c x (b :: bytes)) : nextTxByte x = b := by
  have hcell : x.buf[x.idx.toNat]? = some b := by rw [← List.head?_drop, h.cells, List.head?_cons]
  rw [nextTxByte, memRead, List.getD_eq_getElem?_getD, hcell, Option.getD_some]

/-- A byte sent is one byte less to send; the enable falls with the last one, as `count` is then at `FRAME_LEN`. -/
theorem Unsent.send (h : Unsent c x (b :: bytes)) : Unsent c (sendByte c x) bytes := by
  have hcount : x.idx.toNat + (bytes.length + 1) = c.frameLen := h.count
  have hidx : (x.idx + 1).toNat = x.idx.toNat + 1 := by
    have := frameLen_range c
    bv_omega
  have hlast : x.idx.toNat + 1 = c.frameLen ↔ bytes = [] := by
    rw [← List.length_eq_zero_iff]
    omega
  refine ⟨?_, ?_, ?_⟩
  · calc x.buf.drop (x.idx + 1).toNat = (x.buf.drop x.idx.toNat).drop 1 := by rw [hidx, List.drop_drop]
      _ = bytes := by rw [h.cells, List.drop_one, List.tail_cons]
  · change (x.idx + 1).toNat + bytes.length = c.frameLen
    omega
  · simp [sendByte, hlast, h.armed]

end Unsent

section Send
variable {s : State} {b : Byte} {bytes : List Byte}

/-- The state after TXARM (45_transport.md R180). -/
def State.afterArming (s : State) : State := { s with tx := armSend s.frame s.tx }.answer 0

theorem exec_txarm : exec .txarm s = .next s.afterArming := rfl

/-- The state after a TXEV that sends the byte `b`. -/
def State.afterSending (s : State) (b : Byte) : State :=
  { s with tx := sendByte s.cfg s.tx }.answerSent (0x0100 + b.setWidth 16)

theorem exec_txev_of_unsent (h : Unsent s.cfg s.tx (b :: bytes)) : exec .txev s = .next (s.afterSending b) := by
  rw [State.afterSending, ← h.nextTxByte_eq]
  exact congrArg Host.Outcome.next (if_pos h.armed)

/-- As many transmit events as there are bytes to send put these on the wire and touch the transmit unit alone. -/
theorem runInstrs_txevs (h : Unsent s.cfg s.tx bytes) :
    ∃ t, runInstrs (txevs bytes.length) s = .next t ∧ t = { s with tx := t.tx, out := t.out }
      ∧ t.tx.wireOut = s.tx.wireOut ++ bytes ∧ t.tx.buf = s.tx.buf ∧ Unsent s.cfg t.tx [] := by
  induction bytes generalizing s with
  | nil => exact ⟨s, rfl, rfl, (List.append_nil _).symm, rfl, h⟩
  | cons b bytes ih =>
    obtain ⟨t, hrun, hframe, hwire, hbuf, hdone⟩ := ih (s := s.afterSending b) h.send
    refine ⟨t, (runInstrs_cons (exec_txev_of_unsent h)).trans hrun, hframe, ?_, hbuf, hdone⟩
    calc t.tx.wireOut = (s.tx.wireOut ++ [nextTxByte s.tx]) ++ bytes := hwire
      _ = s.tx.wireOut ++ (b :: bytes) := by rw [h.nextTxByte_eq, List.append_assoc, List.singleton_append]

/-- Each of these transmit events shows its byte with the strobe. -/
theorem observations_txevs (h : Unsent s.cfg s.tx bytes) :
    (observations (txevs bytes.length) s).map (fun p => (p.resOut, p.txValid))
      = bytes.map (fun b => (0x0100 + b.setWidth 16, true)) := by
  induction bytes generalizing s with
  | nil => rfl
  | cons b bytes ih =>
    have hobs : observations (txevs (b :: bytes).length) s
        = (s.afterSending b).pins :: observations (txevs bytes.length) (s.afterSending b) :=
      observations_cons (exec_txev_of_unsent h)
    rw [hobs, List.map_cons, ih h.send]
    rfl

end Send

/-- Settles O40: TXARM leaves the whole frame unsent (`Unsent.arm`), and the transmit events send what is unsent. -/
theorem sendEmitsTheWholeFrame : Obligations.SendEmitsTheWholeFrame := by
  intro s _ hlen
  have harmed : Unsent s.afterArming.cfg s.afterArming.tx s.frame := .arm s.tx hlen
  rw [sendOps, ← hlen]
  constructor
  · obtain ⟨t, hrun, hframe, hwire, hbuf, hdone⟩ := runInstrs_txevs harmed
    exact ⟨t, (runInstrs_cons exec_txarm).trans hrun, hframe, hwire, hbuf, hdone.count.trans hlen.symm,
      Bool.eq_false_iff.2 fun hen => hdone.armed_iff.1 hen rfl⟩
  · rw [observations_cons exec_txarm, List.map_cons, observations_txevs harmed]
    rfl

end Sys2Proof.Machine

/-! # Encoding: the decoder and the encoder, pins, MEASURE, the frame (30_encoding.md) -/

namespace Sys2Proof

open Sys2Proof.Laws

/-! ## The decoder by opcode (30_encoding.md R82, R84) -/

section Decode
variable {w : CommandWord} {i : Instr}

/-- The operation of the same opcode with the operands a word holds where R83 places them. -/
def Instr.withOperandsOf (w : CommandWord) : Instr → Instr
  | .rd _ => .rd (selOf w)
  | .push _ _ => .push (channelOf w) (immOf w)
  | .pushd _ => .pushd (channelOf w)
  | .level _ => .level (immOf w)
  | .levelf _ => .levelf (channelOf w)
  | .enc _ _ => .enc (modeBitOf w) (immOf w)
  | .encf _ _ => .encf (modeBitOf w) (channelOf w)
  | .rxev _ => .rxev (selOf w)
  | i => i

theorem Instr.opcode_withOperandsOf (w : CommandWord) (i : Instr) : (i.withOperandsOf w).opcode = i.opcode := by
  cases i <;> rfl

/-- The opcodes of the map (R82). -/
def opcodeMap : List Byte :=
  [0x00, 0x01, 0x10, 0x11, 0x12, 0x20, 0x21, 0x22, 0x30, 0x31, 0x32, 0x40, 0x41, 0x42, 0x43, 0x50, 0x51, 0x60]

theorem exists_opcode_eq {opc : Byte} (h : opc ∈ opcodeMap) : ∃ i : Instr, i.opcode = opc := by
  have hmap : ∀ opc ∈ opcodeMap, ∃ i ∈ ([.reset, .rd 0, .tick, .trigger, .edge, .dist, .push 0 0, .pushd 0, .level 0,
      .levelf 0, .presetNext, .enc false 0, .encf false 0, .txarm, .txev, .rxev 0, .consume, .scan] : List Instr),
      i.opcode = opc := by decide
  obtain ⟨i, -, hi⟩ := hmap opc h
  exact ⟨i, hi⟩

theorem decode_of_opcode (h : opcOf w = i.opcode) : decode w = .ok (i.withOperandsOf w) := by
  unfold decode
  rw [h]
  cases i <;> rfl

theorem decode_of_reserved (h : opcOf w ∉ opcodeMap) : decode w = .error (.reservedOpcode (opcOf w)) := by
  simp only [opcodeMap, List.mem_cons, List.not_mem_nil, or_false, not_or] at h
  simp only [decode, h, if_false]

/-- The decoder takes the operation from `opc` alone, and its operands from where R83 places them. -/
theorem decode_eq_ok_iff : decode w = .ok i ↔ opcOf w = i.opcode ∧ i.withOperandsOf w = i := by
  constructor
  · intro h
    by_cases hmap : opcOf w ∈ opcodeMap
    · obtain ⟨j, hj⟩ := exists_opcode_eq hmap
      obtain rfl : j.withOperandsOf w = i := Except.ok.inj ((decode_of_opcode hj.symm).symm.trans h)
      have hopc : opcOf w = (j.withOperandsOf w).opcode := by rw [Instr.opcode_withOperandsOf, hj]
      exact ⟨hopc, Except.ok.inj ((decode_of_opcode hopc).symm.trans h)⟩
    · cases (decode_of_reserved hmap).symm.trans h
  · rintro ⟨hopc, hoperands⟩
    rw [decode_of_opcode hopc, hoperands]

end Decode

/-! ## Words by their fields (30_encoding.md R80) -/

section Fields
variable (v w : CommandWord)

theorem encode_fields (i : Instr) : CanonicalFields.Statement i := CanonicalFields.fields_of_parts _ _ _

theorem eq_append_fields : w = (opcOf w ++ selOf w) ++ immOf w := by
  have hupper : opcOf w ++ selOf w = w.extractLsb' 16 16 :=
    BitVec.extractLsb'_append_extractLsb'_eq_extractLsb' (start₁ := 16) (len₁ := 8) rfl
  have hword : w.extractLsb' 16 16 ++ immOf w = w.extractLsb' 0 32 :=
    BitVec.extractLsb'_append_extractLsb'_eq_extractLsb' (start₁ := 0) (len₁ := 16) rfl
  rw [hupper, hword, BitVec.extractLsb'_eq_self]

theorem eq_zero_iff_fields : w = 0 ↔ opcOf w = 0 ∧ selOf w = 0 ∧ immOf w = 0 := by
  constructor
  · rintro rfl
    decide
  · rintro ⟨hopc, hsel, himm⟩
    rw [eq_append_fields w, hopc, hsel, himm]
    rfl

theorem opcOf_and : opcOf (v &&& w) = opcOf v &&& opcOf w := BitVec.extractLsb'_and
theorem selOf_and : selOf (v &&& w) = selOf v &&& selOf w := BitVec.extractLsb'_and
theorem immOf_and : immOf (v &&& w) = immOf v &&& immOf w := BitVec.extractLsb'_and
theorem opcOf_xor : opcOf (v ^^^ w) = opcOf v ^^^ opcOf w := BitVec.extractLsb'_xor
theorem selOf_xor : selOf (v ^^^ w) = selOf v ^^^ selOf w := BitVec.extractLsb'_xor
theorem immOf_xor : immOf (v ^^^ w) = immOf v ^^^ immOf w := BitVec.extractLsb'_xor

end Fields

/-! ## The operand fields under their masks (30_encoding.md R83)

Two values agree under a mask when their `^^^` has no bit in common with it. -/

/-- The bits of `sel` an operation reads (R83). -/
def Instr.selMask : Instr → Byte
  | .rd _ | .rxev _ => BitVec.allOnes 8
  | .push _ _ | .pushd _ | .levelf _ => 0x03
  | .enc _ _ => 0x80
  | .encf _ _ => 0x83
  | _ => 0

/-- The bits of `imm` an operation reads (R83). -/
def Instr.immMask : Instr → Word
  | .push _ _ | .level _ | .enc _ _ => BitVec.allOnes 16
  | _ => 0

/-- The bits that select an operation are `opc` and what it reads of `sel` and `imm`. -/
theorem opcode_operandMask_eq (i : Instr) :
    0xFF000000 ||| i.operandMask = (BitVec.allOnes 8 ++ i.selMask) ++ i.immMask := by
  cases i <;> simp only [Instr.operandMask, Instr.selMask, Instr.immMask] <;> decide

section Masks
variable {n : Nat} (x y : BitVec n) (b : Byte) (ch : ChannelNo) (m : Bool)

theorem and_channelMask : b &&& 0x03 = 0 ↔ b.extractLsb' 0 2 = 0 := by
  revert b
  decide

theorem and_modeMask : b &&& 0x80 = 0 ↔ b.getLsbD 7 = false := by
  revert b
  decide

theorem and_modeChannelMask : b &&& 0x83 = 0 ↔ b &&& 0x80 = 0 ∧ b &&& 0x03 = 0 := by
  rw [show (0x83 : Byte) = 0x80 ||| 0x03 from rfl, BitVec.and_or_distrib_left]
  exact BitVec.or_eq_zero_iff

theorem channelSel_channel : (channelSel ch).extractLsb' 0 2 = ch := by
  revert ch
  decide

theorem channelSel_mode : (channelSel ch).getLsbD 7 = false := by
  revert ch
  decide

theorem modeSel_channel : (modeSel m).extractLsb' 0 2 = 0#2 := by cases m <;> rfl

theorem modeSel_mode : (modeSel m).getLsbD 7 = m := by cases m <;> rfl

theorem agree_none : (x ^^^ y) &&& 0 = 0 := BitVec.and_zero

theorem agree_all : (x ^^^ y) &&& BitVec.allOnes n = 0 ↔ x = y := by
  rw [BitVec.and_allOnes]
  exact BitVec.xor_eq_zero_iff

theorem agree_channel : (b ^^^ channelSel ch) &&& 0x03 = 0 ↔ b.extractLsb' 0 2 = ch := by
  rw [and_channelMask, BitVec.extractLsb'_xor, channelSel_channel]
  exact BitVec.xor_eq_zero_iff

theorem agree_mode : (b ^^^ modeSel m) &&& 0x80 = 0 ↔ b.getLsbD 7 = m := by
  rw [and_modeMask, BitVec.getLsbD_xor, modeSel_mode]
  exact bne_eq_false_iff_eq

theorem agree_mode_channel :
    (b ^^^ (modeSel m ||| channelSel ch)) &&& 0x83 = 0 ↔ b.getLsbD 7 = m ∧ b.extractLsb' 0 2 = ch := by
  rw [and_modeChannelMask, and_modeMask, and_channelMask, BitVec.getLsbD_xor, BitVec.getLsbD_or, modeSel_mode,
    channelSel_mode, Bool.or_false, BitVec.extractLsb'_xor, BitVec.extractLsb'_or, modeSel_channel, BitVec.zero_or,
    channelSel_channel]
  exact and_congr bne_eq_false_iff_eq BitVec.xor_eq_zero_iff

end Masks

/-! ## Words and operations that agree (30_encoding.md R85) -/

section Agree
variable (w : CommandWord) (i : Instr)

theorem withOperandsOf_eq_iff :
    i.withOperandsOf w = i ↔ (selOf w ^^^ i.sel) &&& i.selMask = 0 ∧ (immOf w ^^^ i.imm) &&& i.immMask = 0 := by
  cases i <;> simp only [Instr.withOperandsOf, channelOf, modeBitOf, Instr.sel, Instr.imm, Instr.selMask, Instr.immMask,
    agree_none, agree_all, agree_channel, agree_mode, agree_mode_channel, and_true, and_self, true_and,
    Instr.rd.injEq, Instr.push.injEq, Instr.pushd.injEq, Instr.level.injEq, Instr.levelf.injEq, Instr.enc.injEq,
    Instr.encf.injEq, Instr.rxev.injEq]

theorem agrees_iff :
    (w ^^^ encode i) &&& (0xFF000000 ||| i.operandMask) = 0 ↔ opcOf w = i.opcode ∧ i.withOperandsOf w = i := by
  obtain ⟨hopc, hsel, himm⟩ := encode_fields i
  obtain ⟨hmopc, hmsel, hmimm⟩ := CanonicalFields.fields_of_parts (BitVec.allOnes 8) i.selMask i.immMask
  rw [withOperandsOf_eq_iff, eq_zero_iff_fields, opcode_operandMask_eq, opcOf_and, opcOf_xor, selOf_and, selOf_xor,
    immOf_and, immOf_xor, hopc, hsel, himm, hmopc, hmsel, hmimm]
  exact and_congr_left' (agree_all _ _)

theorem sel_and_not_selMask : i.sel &&& ~~~i.selMask = 0 := by
  cases i <;> simp only [Instr.sel, Instr.selMask]
  case rd | rxev => exact BitVec.and_zero
  case push ch _ | pushd ch | levelf ch =>
    revert ch
    decide
  case enc m _ => cases m <;> rfl
  case encf m ch =>
    revert m ch
    decide
  all_goals rfl

theorem imm_and_not_immMask : i.imm &&& ~~~i.immMask = 0 := by
  cases i <;> simp only [Instr.imm, Instr.immMask]
  case push | level | enc => exact BitVec.and_zero
  all_goals rfl

theorem encode_and_not_mask : encode i &&& ~~~(0xFF000000 ||| i.operandMask) = 0 := by
  have hopc : i.opcode &&& ~~~BitVec.allOnes 8 = 0 := BitVec.and_zero
  rw [opcode_operandMask_eq, encode, BitVec.not_append, BitVec.not_append, BitVec.and_append, BitVec.and_append,
    hopc, sel_and_not_selMask, imm_and_not_immMask]
  rfl

end Agree

/-- Settles O2: both sides say that `opc` and the operands of the word are those of the operation. -/
theorem ignoredBitsDoNotMatter : Obligations.IgnoredBitsDoNotMatter :=
  ⟨fun w i => decode_eq_ok_iff.trans (agrees_iff w i).symm, encode_and_not_mask⟩

/-- Settles O1: the canonical word of an operation agrees with itself. -/
theorem decodeOfEncodeIsTheInstruction : Obligations.DecodeOfEncodeIsTheInstruction := by
  intro i
  have hagree : (encode i ^^^ encode i) &&& (0xFF000000 ||| i.operandMask) = 0 := by
    rw [BitVec.xor_self, BitVec.zero_and]
    rfl
  exact decode_eq_ok_iff.2 ((agrees_iff _ i).1 hagree)

theorem decode_of_encode_eq {w : CommandWord} {i : Instr} (h : encode i = w) : decode w = .ok i :=
  h ▸ decodeOfEncodeIsTheInstruction i

/-- Settles O4: each word is the canonical word of its operation. -/
theorem wordsOfTheSpecDecode : Obligations.WordsOfTheSpecDecode := by
  refine ⟨?_, ?_, ?_, ?_, ?_, ?_, ?_, ?_, ?_, ?_⟩ <;> exact decode_of_encode_eq rfl

end Sys2Proof

namespace Sys2Proof.Machine

/-- Settles O5: the assembler is run on the characters of each line. -/
theorem linesOfTheSpecAssemble : Obligations.LinesOfTheSpecAssemble := by
  unfold Obligations.LinesOfTheSpecAssemble
  simp only [String.reduceToList]
  decide

/-! ## Reserved words and pins (30_encoding.md R81, R84) -/

theorem perform_of_reserved {s : State} {x : Input} {opc : Byte} (hl : s.cfg.Legal)
    (hx : inputInstr x = .error (.reservedOpcode opc)) : perform x s = .refused (.reservedOpcode opc) := by
  simp only [perform, if_pos hl, hx]

/-- Settles O3: the decoder knows no `opc` outside the map (`decode_of_reserved`), and `perform` refuses by its error. -/
theorem reservedOpcodeIsRefused : Obligations.ReservedOpcodeIsRefused := by
  intro s w rest hw
  have hdecode : decode w = .error (.reservedOpcode (opcOf w)) := decode_of_reserved hw
  refine ⟨hdecode, fun hl hin => ?_⟩
  calc step s = perform (.command w) { s with inputs := rest } := step_of_input hin
    _ = .refused (.reservedOpcode (opcOf w)) := perform_of_reserved hl hdecode

/-- An input that starts an operation is the step of the operation's command word, and `exec` of it. -/
theorem step_input_eq_step_word {s : State} {x : Input} {i : Instr} {w : CommandWord} {rest : List Input}
    (hl : s.cfg.Legal) (hx : inputInstr x = .ok i) (hw : encode i = w) :
    step { s with inputs := x :: rest } = step { s with inputs := .command w :: rest }
    ∧ step { s with inputs := x :: rest } = exec i { s with inputs := rest } := by
  have hpin : step { s with inputs := x :: rest } = exec i { s with inputs := rest } := perform_of_legal hl hx
  have hword : step { s with inputs := .command w :: rest } = exec i { s with inputs := rest } :=
    perform_of_legal hl (decode_of_encode_eq hw)
  exact ⟨hpin.trans hword.symm, hpin⟩

/-- Settles O7: each word is the canonical word of the operation its pin starts. -/
theorem pinsStartTheSameTransitions : Obligations.PinsStartTheSameTransitions := by
  intro s rest b hl
  refine ⟨?_, ?_, ?_, ?_, ?_⟩ <;> exact step_input_eq_step_word hl rfl rfl

/-! ## The frame ENC builds (30_encoding.md R86 to R90, 44_frame_codec.md R165) -/

theorem exec_enc (m : Bool) (v : Word) (s : State) : exec (.enc m v) s = .next (buildFrame m v s) := rfl

theorem buildFrame_frame (m : Bool) (v : Word) (s : State) : (buildFrame m v s).frame = frameOf s.cfg m v := rfl

/-- Settles O37: the encoder's frame is a built frame (`builtFrame_frameOf`). -/
theorem sentinelIsOnlyTheLastByte : Obligations.SentinelIsOnlyTheLastByte := by
  intro s t m v hc henc
  obtain ⟨-, -, -, -, -, -, htag, -⟩ := hc
  have hbuilt : BuiltFrame s.cfg (frameOf s.cfg m v) := builtFrame_frameOf s.cfg m v htag
  obtain rfl : buildFrame m v s = t := Host.Outcome.next.inj henc
  rw [buildFrame_frame]
  refine ⟨length_frameOf s.cfg m v, fun i hi => ⟨fun hsentinel => ?_, fun hlast => hlast ▸ hbuilt.last⟩⟩
  by_contra hne
  exact hbuilt.only_last i (by omega) hsentinel

/-- The digit slots hold the decimal digits, least significant first (30_encoding.md R87). -/
theorem digitWalk_eq_map (k v : Nat) :
    digitWalk k v = (List.range k).map fun j => BitVec.ofNat 8 (0x30 + v / 10 ^ j % 10) := by
  induction k generalizing v with
  | zero => rfl
  | succ k ih =>
    rw [digitWalk, ih, List.range_succ_eq_map, List.map_cons, List.map_map, Nat.pow_zero, Nat.div_one]
    refine congrArg _ (List.map_congr_left fun j _ => ?_)
    rw [Function.comp_apply, Nat.div_div_eq_div_mul, Nat.pow_succ']

section FrameOf
variable {c : Config} (m : Bool) (v : Word)

theorem frameOf_of_no_modeTag (h : c.hasModeTag = false) : frameOf c m v
    = digitWalk 4 v.toNat ++ [BitVec.ofNat 8 (0x30 + digitCount v.toNat), sentinel] := by
  simp only [frameOf, h, Bool.false_eq_true, if_false, List.append_nil, List.append_assoc, List.singleton_append]

theorem frameOf_of_modeTag (h : c.hasModeTag = true) : frameOf c m v
    = digitWalk 4 v.toNat ++ [BitVec.ofNat 8 (0x30 + digitCount v.toNat), modeTagOf c m, sentinel] := by
  simp only [frameOf, h, if_true, List.append_assoc, List.cons_append, List.nil_append]

end FrameOf

theorem modeSel_eq_append (m : Bool) : modeSel m = BitVec.ofBool m ++ 0#7 := by cases m <;> rfl

/-- Settles O35: the frame is the digit walk, the count tag, the mode tag if any, and the sentinel. -/
theorem encBuildsTheFrame : Obligations.EncBuildsTheFrame := by
  refine ⟨fun m v => ?_, fun s m v => ⟨_, exec_enc m v s, rfl, fun h => ?_, fun h => ?_⟩⟩
  · rw [← modeSel_eq_append]
    rfl
  · rw [buildFrame_frame, frameOf_of_no_modeTag m v h, digitWalk_eq_map]
    rfl
  · rw [buildFrame_frame, frameOf_of_modeTag m v h, digitWalk_eq_map]
    rfl

/-! ## Runs of TICK, TRIGGER and EDGE touch the capture unit alone -/

/-- An operation of the capture unit (41_capture.md). -/
def IsCaptureOp (i : Instr) : Prop := i = .tick ∨ i = .trigger ∨ i = .edge

/-- What a capture operation does to the capture unit (41_capture.md R110 to R112). -/
def captureStep (c : Config) (k : Capture) : Instr → Capture
  | .tick => tickCapture c k
  | .trigger => triggerCapture c k
  | .edge => edgeCapture c k
  | _ => k

/-- What a list of capture operations does to the capture unit. -/
def captureRun (c : Config) (l : List Instr) (k : Capture) : Capture := l.foldl (captureStep c) k

theorem exec_captureOp {i : Instr} (hi : IsCaptureOp i) (s : State) :
    exec i s = .next ({ s with cap := captureStep s.cfg s.cap i }.answer 0) := by
  rcases hi with rfl | rfl | rfl <;> rfl

theorem runInstrs_captureOps {l : List Instr} (hl : ∀ i ∈ l, IsCaptureOp i) (s : State) :
    ∃ t, runInstrs l s = .next t ∧ t = { s with cap := captureRun s.cfg l s.cap, out := t.out } := by
  induction l generalizing s with
  | nil => exact ⟨s, rfl, rfl⟩
  | cons i l ih =>
    obtain ⟨hi, hl⟩ := List.forall_mem_cons.1 hl
    obtain ⟨t, hrun, ht⟩ := ih hl ({ s with cap := captureStep s.cfg s.cap i }.answer 0)
    exact ⟨t, (runInstrs_cons (exec_captureOp hi s)).trans hrun, ht⟩

section Run
variable (c : Config) (k : Capture)

theorem captureRun_append (l l' : List Instr) :
    captureRun c (l ++ l') k = captureRun c l' (captureRun c l k) := List.foldl_append

theorem captureRun_ticks_succ (n : Nat) :
    captureRun c (ticks (n + 1)) k = tickCapture c (captureRun c (ticks n) k) := by
  rw [ticks, List.replicate_succ', captureRun_append]
  rfl

end Run

/-! ## The counter over a number of ticks -/

/-- The counter `n` ticks after it stood at 0 (41_capture.md R110). -/
def counterAt (c : Config) (n : Nat) : Word := BitVec.ofNat 16 (n % 2 ^ c.tw)

theorem counterAt_zero (c : Config) : counterAt c 0 = 0 := by
  rw [counterAt, Nat.zero_mod]
  rfl

section Counter
variable {c : Config} (htw : c.tw ≤ 16)
include htw

theorem counterAt_toNat (n : Nat) : (counterAt c n).toNat = n % 2 ^ c.tw := by
  have hlt : n % 2 ^ c.tw < 2 ^ c.tw := Nat.mod_lt _ (Nat.two_pow_pos _)
  have := two_pow_tw_le htw
  rw [counterAt, BitVec.toNat_ofNat]
  exact Nat.mod_eq_of_lt (by omega)

theorem truncTW_counterAt_succ (n : Nat) : truncTW c (counterAt c n + 1) = counterAt c (n + 1) := by
  apply BitVec.eq_of_toNat_eq
  rw [truncTW_succ htw, counterAt_toNat htw, counterAt_toNat htw, Nat.mod_add_mod]

/-- A difference with a count is the difference with the number of ticks, modulo 2^`TW` (41_capture.md R113). -/
theorem truncTW_counterAt_sub (m : Nat) (v : Word) :
    ((truncTW c (counterAt c m - v)).toNat : Int) = ((m : Int) - v.toNat) % 2 ^ c.tw := by
  rw [truncTW_sub htw, counterAt_toNat htw, Int.natCast_mod]
  push_cast
  exact (Int.mod_modEq _ _).sub_right _

/-- The difference of two counts is the ticks between them, modulo 2^`TW` (41_capture.md R113). -/
theorem truncTW_counterAt_sub_counterAt (m n : Nat) :
    (truncTW c (counterAt c (m + n) - counterAt c m)).toNat = n % 2 ^ c.tw := by
  zify
  rw [truncTW_counterAt_sub htw, counterAt_toNat htw, Int.natCast_mod]
  push_cast
  calc ((m + n : Int) - m % 2 ^ c.tw) % 2 ^ c.tw = ((m + n : Int) - m) % 2 ^ c.tw :=
        (Int.mod_modEq _ _).sub_left _
    _ = (n : Int) % 2 ^ c.tw := by rw [add_sub_cancel_left]

end Counter

/-! ## Ticks with and without a pulse (41_capture.md R110) -/

section Ticks
variable {c : Config} {k : Capture} {m : Nat} (htw : c.tw ≤ 16) (hm : k.count = counterAt c m)
include htw hm

/-- With no pulse running, ticks move the counter alone. -/
theorem captureRun_ticks_of_no_pulse (ht : k.trig = false) (n : Nat) :
    captureRun c (ticks n) k = { k with count := counterAt c (m + n) } := by
  induction n with
  | zero => rw [Nat.add_zero, ← hm]; rfl
  | succ n ih =>
    rw [captureRun_ticks_succ, ih]
    rcases tickCapture_cases c { k with count := counterAt c (m + n) } with ⟨-, e⟩ | ⟨hf, -⟩ | ⟨hf, -⟩
    · rw [e, truncTW_counterAt_succ htw, Nat.add_assoc]
    · cases ht.symm.trans hf
    · cases ht.symm.trans hf

/-- Fewer ticks than the pulse has left move the counter and the pulse alone. -/
theorem captureRun_ticks_in_pulse (ht : k.trig = true) {n : Nat} (hn : n < k.pulseCnt.toNat) :
    captureRun c (ticks n) k
      = { k with count := counterAt c (m + n), pulseCnt := k.pulseCnt - BitVec.ofNat 8 n } := by
  induction n with
  | zero =>
    rw [Nat.add_zero, ← hm, BitVec.sub_zero]
    rfl
  | succ n ih =>
    have hpulse : k.pulseCnt - BitVec.ofNat 8 n - 1 = k.pulseCnt - BitVec.ofNat 8 (n + 1) := by bv_omega
    have hleft : k.pulseCnt - BitVec.ofNat 8 (n + 1) ≠ 0 := by bv_omega
    rw [captureRun_ticks_succ, ih (by omega)]
    rcases tickCapture_cases c { k with count := counterAt c (m + n), pulseCnt := k.pulseCnt - BitVec.ofNat 8 n }
      with ⟨hf, -⟩ | ⟨-, hf, -⟩ | ⟨-, -, e⟩
    · cases ht.symm.trans hf
    · exact absurd (hpulse.symm.trans hf) hleft
    · rw [e, truncTW_counterAt_succ htw, Nat.add_assoc, hpulse]

/-- As many ticks as the pulse has left end it and arm the capture. -/
theorem captureRun_ticks_of_pulse (ht : k.trig = true) (hp : 0 < k.pulseCnt.toNat) :
    captureRun c (ticks k.pulseCnt.toNat) k
      = { k with count := counterAt c (m + k.pulseCnt.toNat), pulseCnt := 0, trig := false, armed := true } := by
  obtain ⟨n, hn⟩ := Nat.exists_eq_succ_of_ne_zero hp.ne'
  have hlast : k.pulseCnt - BitVec.ofNat 8 n - 1 = 0 := by bv_omega
  rw [hn, captureRun_ticks_succ, captureRun_ticks_in_pulse htw hm ht (by omega)]
  rcases tickCapture_cases c { k with count := counterAt c (m + n), pulseCnt := k.pulseCnt - BitVec.ofNat 8 n }
    with ⟨hf, -⟩ | ⟨-, -, e⟩ | ⟨-, hf, -⟩
  · cases ht.symm.trans hf
  · rw [e, truncTW_counterAt_succ htw, Nat.add_assoc, hlast]
  · exact absurd hlast hf

end Ticks

/-! ## The parts of MEASURE (30_encoding.md R96) -/

/-- The capture unit `r` ticks after the pulse of a TRIGGER has run down (41_capture.md R110, R111). -/
def pulsedCapture (c : Config) (k : Capture) (r : Nat) : Capture :=
  { k with
    count := counterAt c (c.trigTicks + r), pulseCnt := 0, trig := false, armed := true, complete := false,
    lastEdge := if c.trigClearsEdge then false else k.lastEdge }

theorem captureRun_trigger_ticks {c : Config} (htw : c.tw ≤ 16) (hT : c.TrigTicksOk) (k : Capture) (r : Nat) :
    captureRun c (ticks r) (captureRun c (ticks c.trigTicks) (triggerCapture c k)) = pulsedCapture c k r := by
  have hpulse : (triggerCapture c k).pulseCnt.toNat = c.trigTicks := by
    rw [triggerCapture, BitVec.toNat_ofNat]
    exact Nat.mod_eq_of_lt (by omega)
  have hend := captureRun_ticks_of_pulse (k := triggerCapture c k) htw (counterAt_zero c).symm rfl (by omega)
  rw [hpulse, Nat.zero_add] at hend
  rw [hend]
  exact captureRun_ticks_of_no_pulse htw rfl rfl r

section Echo
variable {c : Config} {k : Capture} {m : Nat}

theorem edgeCapture_of_rising (ha : k.armed = true) (hl : k.lastEdge = false) : edgeCapture c k = risingEdge k := by
  simp only [edgeCapture, ha, hl, if_true, Bool.false_eq_true, if_false]

theorem edgeCapture_of_falling (ha : k.armed = true) (hl : k.lastEdge = true) :
    edgeCapture c k = fallingEdge c k := by
  simp only [edgeCapture, ha, hl, if_true]

variable (htw : c.tw ≤ 16) (hm : k.count = counterAt c m) (ha : k.armed = true) (ht : k.trig = false) (w : Nat)
include htw hm ha ht

/-- The edges of an echo, the first taken as rising (41_capture.md R112). -/
theorem captureRun_echo_of_rising (hl : k.lastEdge = false) :
    edgeCapture c (captureRun c (ticks w) (edgeCapture c k))
      = fallingEdge c { risingEdge k with count := counterAt c (m + w) } := by
  rw [edgeCapture_of_rising ha hl, captureRun_ticks_of_no_pulse (k := risingEdge k) htw hm ht]
  exact edgeCapture_of_falling ha rfl

/-- The edges of an echo, the first taken as falling (41_capture.md R112). -/
theorem captureRun_echo_of_falling (hl : k.lastEdge = true) :
    edgeCapture c (captureRun c (ticks w) (edgeCapture c k))
      = risingEdge { fallingEdge c k with count := counterAt c (m + w) } := by
  rw [edgeCapture_of_falling ha hl, captureRun_ticks_of_no_pulse (k := fallingEdge c k) htw hm ht]
  exact edgeCapture_of_rising ha rfl

end Echo

theorem measureOps_isCaptureOp (c : Config) (r w : Nat) : ∀ i ∈ measureOps c r w, IsCaptureOp i := by
  have hticks : ∀ n, ∀ i ∈ ticks n, IsCaptureOp i := fun _ _ h => .inl (List.eq_of_mem_replicate h)
  have hedge : ∀ i ∈ [Instr.edge], IsCaptureOp i := List.forall_mem_singleton.2 (.inr (.inr rfl))
  simp only [measureOps, List.forall_mem_cons (a := Instr.trigger), List.forall_mem_append]
  exact ⟨.inr (.inl rfl), ⟨⟨⟨hticks _, hticks r⟩, hedge⟩, hticks w⟩, hedge⟩

theorem captureRun_measureOps (c : Config) (k : Capture) (r w : Nat) :
    captureRun c (measureOps c r w) k
      = edgeCapture c (captureRun c (ticks w) (edgeCapture c
          (captureRun c (ticks r) (captureRun c (ticks c.trigTicks) (triggerCapture c k))))) := by
  change captureRun c (_ ++ _) (triggerCapture c k) = _
  simp only [captureRun_append]
  rfl

/-- Settles O23: the pulse of the TRIGGER leaves the capture armed with an edge flag that decides how the two edges of
the echo are taken, and the counter counts from the TRIGGER. -/
theorem measureGivesTheEchoLength : Obligations.MeasureGivesTheEchoLength := by
  intro s r w hc
  obtain ⟨hT, ⟨-, htw⟩, -⟩ := hc
  obtain ⟨t, hrun, ht⟩ := runInstrs_captureOps (measureOps_isCaptureOp s.cfg r w) s
  have hrest : t.filter = s.filter ∧ t.alarm = s.alarm ∧ t.frame = s.frame ∧ t.tx = s.tx ∧ t.rx = s.rx
      ∧ t.disp = s.disp := by
    rw [ht]
    exact ⟨rfl, rfl, rfl, rfl, rfl, rfl⟩
  have hcap : t.cap
      = edgeCapture s.cfg (captureRun s.cfg (ticks w) (edgeCapture s.cfg (pulsedCapture s.cfg s.cap r))) := by
    rw [← captureRun_trigger_ticks htw hT, ← captureRun_measureOps, ht]
  have hcount := counterAt_toNat htw
  refine ⟨t, hrun, ?_⟩
  cases hl : (pulsedCapture s.cfg s.cap r).lastEdge
  case false =>
    rw [hcap, captureRun_echo_of_rising htw rfl rfl rfl w hl]
    refine ⟨rfl, rfl, rfl, hcount _, fun _ => ⟨truncTW_counterAt_sub_counterAt htw _ w, hcount _, hcount _, rfl⟩,
      fun hkeep hstale => ?_, hrest⟩
    simp [pulsedCapture, hkeep, hstale] at hl
  case true =>
    rw [hcap, captureRun_echo_of_falling htw rfl rfl rfl w hl]
    refine ⟨rfl, rfl, rfl, hcount _, fun hclear => ?_,
      fun _ _ => ⟨truncTW_counterAt_sub htw _ _, hcount _, hcount _, rfl⟩, hrest⟩
    rcases hclear with h | h <;> simp [pulsedCapture, h] at hl

end Sys2Proof.Machine

/-! # Capture: TICK, TRIGGER and EDGE, the pulse, travel, and a missing echo (41_capture.md) -/

namespace Sys2Proof.Machine

/-! ## One operation of the capture unit (41_capture.md R110 to R112) -/

/-- A pulse that still runs counts down by one, and the countdown ends where the naturals' does. -/
theorem pulseCnt_sub_one {p : Byte} (h : 1 ≤ p.toNat) :
    (p - 1).toNat = p.toNat - 1 ∧ (p - 1 = 0 ↔ p.toNat - 1 = 0) := by
  have hdown : (p - 1).toNat = p.toNat - 1 := BitVec.toNat_sub_of_le h
  exact ⟨hdown, by rw [← hdown, ← BitVec.toNat_inj]; rfl⟩

/-- Settles O18: the three cases of a tick; in a pulse, the countdown is that of the naturals (`pulseCnt_sub_one`). -/
theorem tickCountsAndRunsDownThePulse : Obligations.TickCountsAndRunsDownThePulse := by
  refine ⟨rfl, rfl, fun s hc hp => ?_⟩
  obtain ⟨-, ⟨-, htw⟩, -⟩ := hc
  have hcount := truncTW_succ htw s.cap.count
  refine ⟨_, exec_captureOp (.inl rfl) s, rfl, ?_⟩
  simp only [State.answer_cap, captureStep]
  rcases tickCapture_cases s.cfg s.cap with ⟨ht, e⟩ | ⟨ht, hlast, e⟩ | ⟨ht, hmore, e⟩ <;> rw [e]
  · exact ⟨rfl, hcount, fun _ => ⟨rfl, ht, rfl⟩, fun hf => Bool.noConfusion (ht.symm.trans hf)⟩
  · obtain ⟨hdown, hend⟩ := pulseCnt_sub_one (hp ht)
    exact ⟨rfl, hcount, fun hf => Bool.noConfusion (ht.symm.trans hf),
      fun _ => ⟨hdown, fun _ => ⟨rfl, rfl⟩, absurd (hend.1 hlast)⟩⟩
  · obtain ⟨hdown, hend⟩ := pulseCnt_sub_one (hp ht)
    exact ⟨rfl, hcount, fun hf => Bool.noConfusion (ht.symm.trans hf),
      fun _ => ⟨hdown, fun hz => absurd (hend.2 hz) hmore, fun _ => ⟨ht, rfl⟩⟩⟩

/-- A legal pulse length fits the 8 bits of `pulse_cnt` (10_state.md R24). -/
theorem triggerCapture_pulseCnt {c : Config} (hT : c.TrigTicksOk) (k : Capture) :
    (triggerCapture c k).pulseCnt.toNat = c.trigTicks := by
  rw [triggerCapture, BitVec.toNat_ofNat]
  exact Nat.mod_eq_of_lt (by omega)

/-- Settles O19: TRIGGER writes these registers, and a legal `TRIG_TICKS` fits `pulse_cnt`. -/
theorem triggerStartsACycle : Obligations.TriggerStartsACycle := by
  refine ⟨rfl, fun s hc => ?_⟩
  obtain ⟨hT, -⟩ := hc
  exact ⟨_, exec_captureOp (.inr (.inl rfl)) s, rfl, rfl, rfl, triggerCapture_pulseCnt hT s.cap, rfl, rfl,
    fun hclear => if_pos hclear, fun hkeep => if_neg (Bool.eq_false_iff.1 hkeep), rfl, rfl, rfl⟩

theorem edgeCapture_of_disarmed {c : Config} {k : Capture} (ha : k.armed = false) : edgeCapture c k = k := by
  simp only [edgeCapture, ha, Bool.false_eq_true, if_false]

/-- Settles O20: `armed` and `last_edge` decide the case, and `travel` is a difference modulo 2^`TW` (`truncTW_sub`). -/
theorem edgeLatchesByTheFlagAlone : Obligations.EdgeLatchesByTheFlagAlone := by
  refine ⟨rfl, rfl, fun s hc => ?_⟩
  obtain ⟨-, ⟨-, htw⟩, -⟩ := hc
  refine ⟨_, exec_captureOp (.inr (.inr rfl)) s, rfl, edgeCapture_of_disarmed, edgeCapture_of_rising,
    fun ha hl => ?_⟩
  simp only [State.answer_cap, captureStep]
  rw [edgeCapture_of_falling ha hl]
  exact ⟨rfl, truncTW_sub htw _ _⟩

/-! ## The ticks between two edges (41_capture.md R113) -/

/-- A counter below 2^`TW` stands where its own number of ticks from 0 leaves it. -/
theorem counterAt_toNat_self {c : Config} {v : Word} (h : v.toNat < 2 ^ c.tw) : counterAt c v.toNat = v := by
  rw [counterAt, Nat.mod_eq_of_lt h, BitVec.ofNat_toNat, BitVec.setWidth_eq]

theorem ticks_isCaptureOp (n : Nat) : ∀ i ∈ ticks n, IsCaptureOp i :=
  fun _ h => .inl (List.eq_of_mem_replicate h)

theorem captureRun_edge_ticks_edge (c : Config) (k : Capture) (n : Nat) :
    captureRun c (.edge :: (ticks n ++ [.edge])) k = edgeCapture c (captureRun c (ticks n) (edgeCapture c k)) :=
  captureRun_append c (edgeCapture c k) (ticks n) [.edge]

/-- Settles O21: the first edge latches the counter as `start`, the ticks move the counter alone, and the second edge
latches it as `end`; the difference of two counts is the number of ticks between them. -/
theorem travelIsTheTicksBetweenTheEdges : Obligations.TravelIsTheTicksBetweenTheEdges := by
  intro s k hc hlt ha hl ht
  obtain ⟨-, ⟨-, htw⟩, -⟩ := hc
  have hops : ∀ i ∈ Instr.edge :: (ticks k ++ [.edge]), IsCaptureOp i :=
    List.forall_mem_cons.2 ⟨.inr (.inr rfl), List.forall_mem_append.2
      ⟨ticks_isCaptureOp k, List.forall_mem_singleton.2 (.inr (.inr rfl))⟩⟩
  obtain ⟨t, hrun, hframe⟩ := runInstrs_captureOps hops s
  have hm := counterAt_toNat_self hlt
  have hcap : t.cap = fallingEdge s.cfg
      { risingEdge s.cap with count := counterAt s.cfg (s.cap.count.toNat + k) } := by
    rw [hframe, ← captureRun_echo_of_rising htw hm.symm ha ht k hl, ← captureRun_edge_ticks_edge]
  have htravel : t.cap.travel.toNat = k % 2 ^ s.cfg.tw := by
    have hdiff := truncTW_counterAt_sub_counterAt htw s.cap.count.toNat k
    rw [hm] at hdiff
    rw [hcap]
    exact hdiff
  refine ⟨t, hrun, ?_, ?_, ?_, htravel, fun hk => htravel.trans (Nat.mod_eq_of_lt hk), ?_, ?_⟩
  all_goals rw [hcap]
  · rfl
  · exact counterAt_toNat htw _
  · exact truncTW_sub htw _ _
  · rfl
  · rfl

/-! ## The length of the pulse (41_capture.md R110, R111) -/

/-- Settles O22: before the last tick the pulse only runs down (`captureRun_ticks_in_pulse`), and the last tick ends it
and arms the capture (`captureRun_trigger_ticks`). -/
theorem triggerPulseLastsTrigTicks : Obligations.TriggerPulseLastsTrigTicks := by
  intro s k hc hk
  obtain ⟨hT, ⟨-, htw⟩, -⟩ := hc
  have hops : ∀ i ∈ Instr.trigger :: ticks k, IsCaptureOp i :=
    List.forall_mem_cons.2 ⟨.inr (.inl rfl), ticks_isCaptureOp k⟩
  obtain ⟨t, hrun, hframe⟩ := runInstrs_captureOps hops s
  have hcap : t.cap = captureRun s.cfg (ticks k) (triggerCapture s.cfg s.cap) := by rw [hframe]; rfl
  have hpulse := triggerCapture_pulseCnt hT s.cap
  refine ⟨t, hrun, ?_⟩
  rcases hk.lt_or_eq with hlt | rfl
  · rw [hcap, captureRun_ticks_in_pulse htw (counterAt_zero s.cfg).symm rfl (hpulse.symm ▸ hlt), Nat.zero_add]
    have hleft : ((triggerCapture s.cfg s.cap).pulseCnt - BitVec.ofNat 8 k).toNat = s.cfg.trigTicks - k := by
      bv_omega
    exact ⟨iff_of_true rfl hlt, iff_of_false Bool.false_ne_true hlt.ne, counterAt_toNat htw k, hleft, rfl, rfl⟩
  · have hend := captureRun_trigger_ticks htw hT s.cap 0
    rw [hcap]
    change captureRun s.cfg (ticks s.cfg.trigTicks) (triggerCapture s.cfg s.cap) = _ at hend
    rw [hend]
    exact ⟨iff_of_false Bool.false_ne_true (lt_irrefl _), iff_of_true rfl rfl, counterAt_toNat htw _,
      (Nat.sub_self _).symm, rfl, rfl⟩

/-! ## A missing echo (41_capture.md R114) -/

/-- What an operation other than EDGE and RESET does to `travel` and `complete`. -/
theorem exec_of_no_edge {i : Instr} {s t : State} (h : exec i s = .next t) (he : i ≠ .edge) (hr : i ≠ .reset) :
    t.cap.travel = s.cap.travel ∧ (t.cap.complete = true → s.cap.complete = true)
    ∧ (i = .trigger → t.cap.complete = false) := by
  have hch := (exec_changes h).capture
  obtain ⟨-, -, htravel⟩ := (hch.registers hr).2 he
  refine ⟨htravel, fun ht => ?_, ?_⟩
  · by_contra hs
    rcases hch.complete fun heq => hs (heq.symm.trans ht) with ⟨-, hi, -⟩ | ⟨hf, -⟩
    · exact he hi
    · cases ht.symm.trans hf
  · rintro rfl
    rw [← Host.Outcome.next.inj h]
    rfl

/-- Without an edge, `travel` is stale and no cycle is completed. -/
theorem runInstrs_of_no_edge {l : List Instr} {s t : State} (hl : ∀ i ∈ l, i ≠ .edge ∧ i ≠ .reset)
    (hrun : runInstrs l s = .next t) :
    t.cap.travel = s.cap.travel ∧ (t.cap.complete = true → s.cap.complete = true)
    ∧ (.trigger ∈ l → t.cap.complete = false) := by
  induction l generalizing s with
  | nil =>
    obtain rfl := Host.Outcome.next.inj hrun
    exact ⟨rfl, id, fun h => absurd h List.not_mem_nil⟩
  | cons i l ih =>
    obtain ⟨⟨he, hr⟩, hl⟩ := List.forall_mem_cons.1 hl
    obtain ⟨u, hu⟩ := exec_isNext i s
    obtain ⟨htravel, hcomplete, htrigger⟩ := exec_of_no_edge hu he hr
    obtain ⟨ihtravel, ihcomplete, ihtrigger⟩ := ih hl ((runInstrs_cons hu).symm.trans hrun)
    refine ⟨ihtravel.trans htravel, hcomplete ∘ ihcomplete, fun hmem => ?_⟩
    rcases List.mem_cons.1 hmem with rfl | hmem
    · exact Bool.eq_false_iff.2 fun ht => Bool.eq_false_iff.1 (htrigger rfl) (ihcomplete ht)
    · exact ihtrigger hmem

/-- The cycle is not complete, `travel` holds the stale value `v`, and `n` further edges do not change that: the flag
`last_edge` counts as an edge already taken. -/
structure StaleFor (v : Word) (n : Nat) (k : Capture) : Prop where
  complete : k.complete = false
  travel : k.travel = v
  edges : k.lastEdge.toNat + n ≤ 1

/-- The pulse runs for more than `n` further ticks, and no longer than a new TRIGGER would make it. -/
structure Pulsing (c : Config) (n : Nat) (k : Capture) : Prop where
  trig : k.trig = true
  armed : k.armed = false
  left : n < k.pulseCnt.toNat
  left_le : k.pulseCnt.toNat ≤ c.trigTicks

section Stale
variable {c : Config} {v : Word} {n m : Nat} {k : Capture}

theorem StaleFor.mono (h : StaleFor v n k) (hm : m ≤ n) : StaleFor v m k :=
  { h with edges := (Nat.add_le_add_left hm _).trans h.edges }

theorem StaleFor.tick (h : StaleFor v n k) : StaleFor v n (tickCapture c k) := by
  obtain ⟨-, -, htravel, hcomplete, hlast⟩ := tickCapture_keeps c k
  exact ⟨hcomplete.trans h.complete, htravel.trans h.travel, hlast.symm ▸ h.edges⟩

theorem StaleFor.trigger (h : StaleFor v n k) : StaleFor v n (triggerCapture c k) := by
  refine ⟨rfl, h.travel, (Nat.add_le_add_right ?_ n).trans h.edges⟩
  simp only [triggerCapture]
  split
  · exact Nat.zero_le _
  · exact le_rfl

/-- A TRIGGER that leaves `last_edge` at 0 starts a cycle in which one edge completes nothing. -/
theorem StaleFor.of_trigger (h : c.trigClearsEdge = true ∨ k.lastEdge = false) :
    StaleFor k.travel 1 (triggerCapture c k) := by
  have hl : (triggerCapture c k).lastEdge = false := by
    rcases h with h | h <;> simp [triggerCapture, h]
  exact ⟨rfl, rfl, by rw [hl, Bool.toNat_false]⟩

/-- An edge is not taken, or taken as rising: a falling one would be the second. -/
theorem StaleFor.edge (h : StaleFor v (n + 1) k) : StaleFor v n (edgeCapture c k) := by
  have hedges := h.edges
  rcases edgeCapture_cases c k with ⟨-, e⟩ | ⟨-, hl, e⟩ | ⟨-, hl, -⟩
  · exact e.symm ▸ h.mono n.le_succ
  · rw [e]
    rw [hl, Bool.toNat_false] at hedges
    exact ⟨h.complete, h.travel, by change 1 + n ≤ 1; omega⟩
  · rw [hl, Bool.toNat_true] at hedges
    omega

theorem Pulsing.mono (h : Pulsing c n k) (hm : m ≤ n) : Pulsing c m k :=
  { h with left := hm.trans_lt h.left }

theorem Pulsing.trigger (hT : c.TrigTicksOk) (hn : n < c.trigTicks) : Pulsing c n (triggerCapture c k) where
  trig := rfl
  armed := rfl
  left := (triggerCapture_pulseCnt hT k).symm ▸ hn
  left_le := (triggerCapture_pulseCnt hT k).le

theorem Pulsing.tick (h : Pulsing c (n + 1) k) : Pulsing c n (tickCapture c k) := by
  obtain ⟨ht, ha, hleft, hle⟩ := h
  obtain ⟨hdown, hend⟩ := pulseCnt_sub_one (Nat.one_le_of_lt hleft)
  rcases tickCapture_cases c k with ⟨hf, -⟩ | ⟨-, hlast, -⟩ | ⟨-, -, e⟩
  · cases ht.symm.trans hf
  · have := hend.1 hlast
    omega
  · rw [e]
    exact ⟨ht, ha, by change n < (k.pulseCnt - 1).toNat; omega,
      by change (k.pulseCnt - 1).toNat ≤ c.trigTicks; omega⟩

end Stale

section Runs
variable {s : State} {i : Instr} {l : List Instr} {v : Word} {k : Capture} (hi : i ≠ .reset)
include hi

/-- While the pulse runs no edge is taken, so it leaves the flag and the result alone. -/
theorem CaptureChange.stale_in_pulse (hT : s.cfg.TrigTicksOk) (h : CaptureChange s i k)
    (hp : Pulsing s.cfg ((i :: l).count .tick) s.cap) (hs : StaleFor v 1 s.cap) :
    Pulsing s.cfg (l.count .tick) k ∧ StaleFor v 1 k := by
  have hrest := hp.mono List.count_le_count_cons
  cases h with
  | keep => exact ⟨hrest, hs⟩
  | reset => exact absurd rfl hi
  | tick =>
    rw [List.count_cons_self] at hp
    exact ⟨hp.tick, hs.tick⟩
  | trigger => exact ⟨.trigger hT (hrest.left.trans_le hrest.left_le), hs.trigger⟩
  | edge =>
    rw [edgeCapture_of_disarmed hp.armed]
    exact ⟨hrest, hs⟩

/-- An edge uses up one of those that change nothing. -/
theorem CaptureChange.stale (h : CaptureChange s i k) (hs : StaleFor v ((i :: l).count .edge) s.cap) :
    StaleFor v (l.count .edge) k := by
  have hrest := hs.mono List.count_le_count_cons
  cases h with
  | keep => exact hrest
  | reset => exact absurd rfl hi
  | tick => exact hrest.tick
  | trigger => exact hrest.trigger
  | edge =>
    rw [List.count_cons_self] at hs
    exact hs.edge

end Runs

theorem runInstrs_cfg {l : List Instr} {s t : State} (h : runInstrs l s = .next t) : t.cfg = s.cfg :=
  runInstrs_keeps (P := fun u => u.cfg = s.cfg) (fun _ _ _ _ hu he => (exec_cfg_inputs he).1.trans hu) rfl h

theorem runInstrs_stale_in_pulse {s : State} {l : List Instr} {v : Word} (hT : s.cfg.TrigTicksOk)
    (hl : ∀ i ∈ l, i ≠ .reset) (hp : Pulsing s.cfg (l.count .tick) s.cap) (hs : StaleFor v 1 s.cap) :
    ∃ t, runInstrs l s = .next t ∧ StaleFor v 1 t.cap := by
  induction l generalizing s with
  | nil => exact ⟨s, rfl, hs⟩
  | cons i l ih =>
    obtain ⟨hi, hl⟩ := List.forall_mem_cons.1 hl
    obtain ⟨u, hu⟩ := exec_isNext i s
    obtain ⟨hp, hs⟩ := (exec_changes hu).capture.stale_in_pulse hi hT hp hs
    rw [← (exec_cfg_inputs hu).1] at hT hp
    rw [runInstrs_cons hu]
    exact ih hT hl hp hs

theorem runInstrs_stale {s : State} {l : List Instr} {v : Word} (hl : ∀ i ∈ l, i ≠ .reset)
    (hs : StaleFor v (l.count .edge) s.cap) : ∃ t, runInstrs l s = .next t ∧ StaleFor v 0 t.cap := by
  induction l generalizing s with
  | nil => exact ⟨s, rfl, hs⟩
  | cons i l ih =>
    obtain ⟨hi, hl⟩ := List.forall_mem_cons.1 hl
    obtain ⟨u, hu⟩ := exec_isNext i s
    rw [runInstrs_cons hu]
    exact ih hl ((exec_changes hu).capture.stale hi hs)

/-- A legal `DMAX` fits the 16 bits of `dist` (42_filter.md R130). -/
theorem distanceOf_toNat {c : Config} (h : c.DmaxOk) (v : Word) :
    (distanceOf c v).toNat = min (v.toNat / c.div) c.dmax := by
  rw [distanceOf, BitVec.toNat_ofNat]
  exact Nat.mod_eq_of_lt ((min_le_right _ _).trans_lt h)

/-- Settles O24: TRIGGER starts a pulse in which no edge is taken (`runInstrs_stale_in_pulse`), and the one edge after
that finds `last_edge` at 0 and so completes nothing (`runInstrs_stale`). -/
theorem missingEchoKeepsTheStaleTravel : Obligations.MissingEchoKeepsTheStaleTravel := by
  refine ⟨fun l s t => runInstrs_of_no_edge, fun s a b hc hflag hreset hticks hedges => ?_⟩
  obtain ⟨hT, -, -, -, -, hdmax, -⟩ := hc
  obtain ⟨ha, hb⟩ := List.forall_mem_append.1 hreset
  obtain ⟨u, hu, hpulse⟩ := runInstrs_stale_in_pulse (s := { s with cap := triggerCapture s.cfg s.cap }.answer 0)
    hT ha (.trigger hT hticks) (.of_trigger hflag)
  obtain ⟨t, ht, hend⟩ := runInstrs_stale hb (hpulse.mono hedges)
  have hrun : runInstrs (.trigger :: (a ++ b)) s = .next t := (runInstrs_append hu).trans ht
  refine ⟨t, _, hrun, hend.complete, hend.travel, rfl, ?_⟩
  rw [← hend.travel, ← runInstrs_cfg hrun]
  exact distanceOf_toNat ((runInstrs_cfg hrun).symm ▸ hdmax) t.cap.travel

end Sys2Proof.Machine

/-! # Filter: DIST, PUSH, PUSHD and the mean of the last samples (42_filter.md) -/

namespace Sys2Proof.Machine

/-- Settles O25: the quotient fits the 16 bits of `dist` after the clamp (`distanceOf_toNat`). -/
theorem distConvertsAndClamps : Obligations.DistConvertsAndClamps := by
  refine ⟨rfl, fun s hc => ?_⟩
  obtain ⟨-, -, -, -, -, hdmax, -⟩ := hc
  exact ⟨_, rfl, rfl, distanceOf_toNat hdmax s.cap.travel⟩

/-- Settles O30: each of the three asks first whether the configuration has the channel. -/
theorem absentChannelDoesNothing : Obligations.AbsentChannelDoesNothing := by
  intro s ch m hch
  exact ⟨congrArg Host.Outcome.next (if_neg hch.not_gt), congrArg Host.Outcome.next (if_neg hch.not_gt),
    congrArg Host.Outcome.next (if_neg hch.not_gt)⟩

theorem channelSel_eq_append (ch : ChannelNo) : channelSel ch = 0#6 ++ ch := by
  revert ch
  decide

/-- Settles O27: PUSHD is defined as the push of `dist`, and no push writes `dist` (`FilterChange.registers`). -/
theorem pushdIsPushOfDist : Obligations.PushdIsPushOfDist := by
  refine ⟨fun ch => ?_, fun s ch => ⟨rfl, _, rfl, ?_⟩⟩
  · rw [← channelSel_eq_append]
    rfl
  · exact ((FilterChange.pushd (s := s)).registers Instr.noConfusion).1 Instr.noConfusion

/-! ## A push, channel by channel (42_filter.md R131, R134) -/

section PushSample
variable {s : State} {ch : ChannelNo} (v : Word)

theorem pushSample_of_present (h : ch.toNat < s.cfg.nch) : pushSample ch v s
    = (s.setChan ch.toNat (pushChannel s.cfg ch (s.chan ch.toNat) v)).answer
        (pushChannel s.cfg ch (s.chan ch.toNat) v).filt := if_pos h

theorem pushSample_of_absent (h : ¬ ch.toNat < s.cfg.nch) : pushSample ch v s = s.answer 0 := if_neg h

theorem pushSample_chan_same (hinv : s.Inv) (h : ch.toNat < s.cfg.nch) :
    (pushSample ch v s).chan ch.toNat = pushChannel s.cfg ch (s.chan ch.toNat) v := by
  rw [pushSample_of_present v h, State.answer_chan]
  exact State.chan_setChan_same _ _ _ (hinv.chans_length ▸ h)

theorem pushSample_chan_ne {i : Nat} (hi : i ≠ ch.toNat) : (pushSample ch v s).chan i = s.chan i := by
  rcases pushSample_cases ch v s with ⟨-, e⟩ | ⟨-, e⟩ <;> rw [e, State.answer_chan]
  exact State.chan_setChan_ne _ _ _ hi

end PushSample

/-- The value stored is the dead-band's choice on naturals: no mean is lost in 16 bits (`meanAfter_lt`). -/
theorem pushChannel_filt_toNat (c : Config) (ch : ChannelNo) (k : Channel) (v : Word) :
    (pushChannel c ch k v).filt.toNat
      = if absDiff (meanAfter c k v) k.filt.toNat < deadband c ch k.filt (BitVec.ofNat 16 (meanAfter c k v))
        then k.filt.toNat else meanAfter c k v := by
  have hmean : (BitVec.ofNat 16 (meanAfter c k v)).toNat = meanAfter c k v :=
    Nat.mod_eq_of_lt (meanAfter_lt c k v)
  rw [pushChannel_filt, applyDeadband, hmean, apply_ite BitVec.toNat, hmean]

/-- The samples held summed cell by cell, counted back from the cell written last. -/
theorem sum_range_eq_sumSamples (n : Nat) (ring : List Word) (last m : Nat) :
    ((List.range m).map fun j => (memRead ring ((last + n - j) % n)).toNat).sum
      = sumSamples (heldSamples n ring last m) := by
  rw [sumSamples, heldSamples, List.map_map]
  rfl

theorem State.Inv.channel {s : State} (hinv : s.Inv) {ch : Nat} (h : ch < s.cfg.nch) :
    ChannelInv s.cfg (s.chan ch) ∧ (s.chan ch).ring.length = s.cfg.n := by
  have hmem : s.chan ch ∈ s.filter.chans := State.chan_mem (hinv.chans_length ▸ h)
  obtain ⟨-, hring, -⟩ := (Memory.wf_iff s).1 hinv.memory
  exact ⟨hinv.filter.chans _ hmem, hring _ hmem⟩

/-- Settles O26: the channel pushed on becomes `pushChannel` of itself (`pushSample_chan_same`), whose value is the
dead-band's choice between the mean and the value before (`pushChannel_filt_toNat`). -/
theorem pushFiltersOneSample : Obligations.PushFiltersOneSample := by
  refine ⟨fun ch v => ?_, fun s ch v hc hinv => ⟨fun hch => ⟨_, rfl, ?_⟩, fun hch => ?_⟩⟩
  · rw [← channelSel_eq_append]
    rfl
  · obtain ⟨-, -, -, ⟨hn1, hn16⟩, -⟩ := hc
    obtain ⟨hk, hring⟩ := hinv.channel hch
    have hfilt := pushChannel_filt_toNat s.cfg ch (s.chan ch.toNat) v
    dsimp only
    rw [pushSample_chan_same v hinv hch, sum_range_eq_sumSamples]
    refine ⟨?_, ?_, fun i hi => pushSample_chan_ne v hi, memRead_memWrite_same _ _ _ (hring ▸ hk.head_lt),
      fun i hi => memRead_memWrite_ne _ _ _ _ hi, pushChannel_head _ _ _ _ hn1 hn16,
      pushChannel_fcount _ _ _ _ hn16, fun hband => ?_, fun hband => ?_⟩
    · rw [pushSample_of_present v hch]
      rfl
    · rw [pushSample_of_present v hch, State.answer_filter, State.setChan_chans, List.length_set]
    · exact BitVec.eq_of_toNat_eq (hfilt.trans (if_pos hband))
    · exact hfilt.trans (if_neg hband)
  · exact congrArg Host.Outcome.next (pushSample_of_absent v hch)

/-! ## The ring as a shift register, newest sample first (42_filter.md R133) -/

/-- The cells of the ring counted back from the one written last. -/
def Channel.newestFirst (k : Channel) : List Word := (k.ring.rotate k.head.toNat).reverse

@[simp] theorem Channel.length_newestFirst (k : Channel) : k.newestFirst.length = k.ring.length := by
  rw [newestFirst, List.length_reverse, List.length_rotate]

/-- What PUSH reads as the samples held are the first cells counted back from `last`. -/
theorem heldSamples_eq_take {n m : Nat} {ring : List Word} (hlen : ring.length = n) (last : Nat) (hm : m ≤ n) :
    heldSamples n ring last m = (ring.rotate (last + 1)).reverse.take m := by
  refine List.ext_getElem (by simp [hlen, hm]) fun j hj _ => ?_
  rw [length_heldSamples] at hj
  have hn : 0 < n := by omega
  have hcell : last + n - j = n - 1 - j + (last + 1) := by omega
  have hlt : (n - 1 - j + (last + 1)) % n < ring.length := (Nat.mod_lt _ hn).trans_eq hlen.symm
  simp only [heldSamples, List.getElem_map, List.getElem_range, List.getElem_take, List.getElem_reverse,
    List.length_rotate, List.getElem_rotate, hlen, memRead, hcell, List.getD_eq_getElem _ _ hlt]

/-- Overwriting the oldest cell and moving the head past it shifts the register by one. -/
theorem reverse_rotate_set {α : Type} {l : List α} {h : Nat} (hlt : h < l.length) (v : α) :
    ((l.set h v).rotate (h + 1)).reverse = v :: (l.rotate h).reverse.dropLast := by
  obtain ⟨a, y, b, rfl, rfl⟩ : ∃ a y b, l = a ++ y :: b ∧ h = a.length :=
    ⟨l.take h, l[h], l.drop (h + 1), by simp, by simp [hlt.le]⟩
  have hset : (a ++ y :: b).set a.length v = (a ++ [v]) ++ b := by simp
  have hrot : ((a ++ [v]) ++ b).rotate (a.length + 1) = b ++ (a ++ [v]) := by
    simpa using List.rotate_append_length_eq (a ++ [v]) b
  rw [hset, hrot, List.rotate_append_length_eq]
  simp

section Ring
variable {c : Config} {k : Channel}

theorem pushChannel_newestFirst (hn : c.NOk) (hring : k.ring.length = c.n) (hhead : k.head.toNat < c.n)
    (ch : ChannelNo) (v : Word) : (pushChannel c ch k v).newestFirst = v :: k.newestFirst.dropLast := by
  obtain ⟨hn1, hn16⟩ := hn
  have hlen : (memWrite k.ring k.head.toNat v).length = c.n := (length_memWrite _ _ _).trans hring
  rw [Channel.newestFirst, pushChannel_head c ch k v hn1 hn16, pushChannel_ring, ← hlen, List.rotate_mod]
  exact reverse_rotate_set (hring ▸ hhead) v

/-- The samples a push averages are the newest `min(fcount + 1, N)` of the ring it leaves. -/
theorem heldSamples_pushChannel (hn : c.NOk) (hring : k.ring.length = c.n) (ch : ChannelNo) (v : Word) :
    heldSamples c.n (pushChannel c ch k v).ring k.head.toNat (pushChannel c ch k v).fcount.toNat
      = (pushChannel c ch k v).newestFirst.take (pushChannel c ch k v).fcount.toNat := by
  obtain ⟨hn1, hn16⟩ := hn
  have hlen : (pushChannel c ch k v).ring.length = c.n := (length_memWrite _ _ _).trans hring
  have hfill : (pushChannel c ch k v).fcount.toNat ≤ c.n :=
    (pushChannel_fcount c ch k v hn16).trans_le (Nat.min_le_right _ _)
  rw [heldSamples_eq_take hlen _ hfill, Channel.newestFirst, pushChannel_head c ch k v hn1 hn16, ← hlen,
    List.rotate_mod]

/-- Below the fill the ring was never written (10_state.md R37 item 1). -/
theorem ChannelInv.unheld_zero (h : ChannelInv c k) (hring : k.ring.length = c.n) :
    ∀ v ∈ k.newestFirst.drop k.fcount.toNat, v = 0 := by
  intro v hv
  obtain hlt | hfull : k.fcount.toNat < c.n ∨ c.n ≤ k.fcount.toNat := Nat.lt_or_ge _ _
  · have hlen : (k.ring.take k.fcount.toNat).reverse.length = k.fcount.toNat := by simp [hring, hlt.le]
    rw [Channel.newestFirst, h.unprimed_head hlt, List.rotate_eq_drop_append_take (hring ▸ hlt.le),
      List.reverse_append, List.drop_left' hlen, List.mem_reverse] at hv
    obtain ⟨i, hi, rfl⟩ := List.getElem_of_mem hv
    rw [List.length_drop, hring] at hi
    have hzero := h.unprimed_zero hlt (k.fcount.toNat + i) (by omega) (by omega)
    rwa [memRead, List.getD_eq_getElem _ _ (by omega), ← List.getElem_drop] at hzero
  · rw [List.drop_eq_nil_of_le (by rwa [Channel.length_newestFirst, hring])] at hv
    exact absurd hv List.not_mem_nil

/-- The cells not held add nothing, and counting back is only another order of the cells. -/
theorem ChannelInv.sum_held (h : ChannelInv c k) (hring : k.ring.length = c.n) :
    sumSamples (k.newestFirst.take k.fcount.toNat) = sumSamples k.ring := by
  have hunheld : sumSamples (k.newestFirst.drop k.fcount.toNat) = 0 :=
    List.sum_eq_zero fun x hx => by
      obtain ⟨v, hv, rfl⟩ := List.mem_map.1 hx
      rw [h.unheld_zero hring v hv]
      rfl
  have hperm : k.newestFirst.Perm k.ring := (List.reverse_perm _).trans (List.rotate_perm _ _)
  calc sumSamples (k.newestFirst.take k.fcount.toNat)
      = sumSamples (k.newestFirst.take k.fcount.toNat) + sumSamples (k.newestFirst.drop k.fcount.toNat) := by
        rw [hunheld, Nat.add_zero]
    _ = sumSamples k.newestFirst := by
        rw [sumSamples, sumSamples, List.map_take, List.map_drop]
        exact List.sum_take_add_sum_drop _ _
    _ = sumSamples k.ring := (hperm.map _).sum_eq

end Ring

/-- Settles O29: the samples held are the newest of the ring (`heldSamples_pushChannel`), and the other cells are 0
(`ChannelInv.sum_held`). -/
theorem sumOfTheHeldIsSumOfTheRing : Obligations.SumOfTheHeldIsSumOfTheRing := by
  intro s t ch v hc hinv hch he
  obtain ⟨-, -, -, hn, -⟩ := hc
  obtain ⟨hk, hring⟩ := hinv.channel hch
  obtain rfl : pushSample ch v s = t := Host.Outcome.next.inj he
  rw [pushSample_chan_same v hinv hch, heldSamples_pushChannel hn hring]
  exact (hk.push hn ch v).sum_held ((length_memWrite _ _ _).trans hring)

/-! ## The ring after a run (42_filter.md R133) -/

/-- The channel has had the samples `pushed`, newest first, since reset: the ring is their newest `N`, filled up with
the zeros of the reset. -/
structure PushedSinceReset (c : Config) (k : Channel) (pushed : List Word) : Prop where
  newest : k.newestFirst = (pushed ++ List.replicate c.n 0).take c.n
  head_eq : k.head.toNat = pushed.length % c.n
  fcount_eq : k.fcount.toNat = min pushed.length c.n

section PushedSinceReset
variable {c : Config} {k : Channel} {pushed : List Word}

theorem PushedSinceReset.initial (c : Config) : PushedSinceReset c (Channel.initial c) [] where
  newest := by simp [Channel.newestFirst, Channel.initial]
  head_eq := by simp [Channel.initial]
  fcount_eq := by simp [Channel.initial]

theorem PushedSinceReset.length_ring (h : PushedSinceReset c k pushed) : k.ring.length = c.n := by
  simpa using congrArg List.length h.newest

theorem PushedSinceReset.push (hn : c.NOk) (h : PushedSinceReset c k pushed) (ch : ChannelNo) (v : Word) :
    PushedSinceReset c (pushChannel c ch k v) (v :: pushed) := by
  obtain ⟨hn1, hn16⟩ := id hn
  have hhead : k.head.toNat < c.n := h.head_eq.trans_lt (Nat.mod_lt _ hn1)
  refine ⟨?_, ?_, ?_⟩
  · obtain ⟨n, hsucc⟩ : ∃ n, c.n = n + 1 := ⟨c.n - 1, by omega⟩
    rw [pushChannel_newestFirst hn h.length_ring hhead, List.dropLast_eq_take, Channel.length_newestFirst,
      h.length_ring, h.newest, List.take_take, Nat.min_eq_left (Nat.sub_le _ _), hsucc, List.cons_append,
      List.take_succ_cons, Nat.add_sub_cancel]
  · rw [pushChannel_head c ch k v hn1 hn16, h.head_eq, Nat.mod_add_mod, List.length_cons]
  · rw [pushChannel_fcount c ch k v hn16, heldAfter, h.fcount_eq, List.length_cons]
    omega

theorem PushedSinceReset.pushes (hn : c.NOk) (ch : ChannelNo) (vs : List Word) (h : PushedSinceReset c k pushed) :
    PushedSinceReset c (vs.foldl (pushChannel c ch) k) (vs.reverse ++ pushed) := by
  induction vs generalizing k pushed with
  | nil => exact h
  | cons v vs ih => simpa using ih (h.push hn ch v)

/-- The samples the next push holds are the last `min(count, N)` since reset. -/
theorem PushedSinceReset.held_after_push (hn : c.NOk) (h : PushedSinceReset c k pushed) (ch : ChannelNo) (v : Word) :
    heldSamples c.n (pushChannel c ch k v).ring k.head.toNat (min (pushed.length + 1) c.n)
      = (v :: pushed).take (min (pushed.length + 1) c.n) := by
  have hnext := h.push hn ch v
  have hle : min (pushed.length + 1) c.n ≤ (v :: pushed).length := Nat.min_le_left _ _
  have hfill : (pushChannel c ch k v).fcount.toNat = min (pushed.length + 1) c.n := hnext.fcount_eq
  rw [← hfill, heldSamples_pushChannel hn h.length_ring, hfill, hnext.newest, List.take_take,
    Nat.min_eq_left (Nat.min_le_right _ _), List.take_append_of_le_length hle]

theorem PushedSinceReset.mean_after_push (hn : c.NOk) (h : PushedSinceReset c k pushed) (v : Word) : meanAfter c k v
    = sumSamples ((v :: pushed).take (min (pushed.length + 1) c.n)) / min (pushed.length + 1) c.n := by
  have hheld : heldSamples c.n (memWrite k.ring k.head.toNat v) k.head.toNat (min (pushed.length + 1) c.n)
      = (v :: pushed).take (min (pushed.length + 1) c.n) := h.held_after_push hn 0 v
  have hfill : heldAfter c k = min (pushed.length + 1) c.n := by
    rw [heldAfter, h.fcount_eq]
    omega
  rw [meanAfter, hfill, hheld]

end PushedSinceReset

/-- An operation other than RESET does to a channel what its push on it does, if it is one. -/
theorem exec_chan {i : Instr} {s t : State} {ch : ChannelNo} (hi : i ≠ .reset) (hinv : s.Inv)
    (hch : ch.toNat < s.cfg.nch) (he : exec i s = .next t) :
    t.chan ch.toNat = (sampleOf ch i s).foldl (pushChannel s.cfg ch) (s.chan ch.toNat) := by
  have hpush : ∀ c v, (pushSample c v s).chan ch.toNat
      = (if c = ch then [v] else []).foldl (pushChannel s.cfg ch) (s.chan ch.toNat) := fun c v => by
    split
    · next heq => exact heq ▸ pushSample_chan_same v hinv (heq ▸ hch)
    · next hne => exact pushSample_chan_ne v fun heq => hne (BitVec.eq_of_toNat_eq heq.symm)
  have hkeep : (∀ c v, i ≠ .push c v) → (∀ c, i ≠ .pushd c) → t.chan ch.toNat = s.chan ch.toNat := by
    intro hp hpd
    rw [State.chan, ((exec_changes he).filter.registers hi).2 hp hpd, (exec_cfg_inputs he).1]
    rfl
  cases i
  case push c v => exact (Host.Outcome.next.inj he) ▸ hpush c v
  case pushd c => exact (Host.Outcome.next.inj he) ▸ hpush c s.filter.dist
  all_goals exact hkeep (fun _ _ => Instr.noConfusion) (fun _ => Instr.noConfusion)

/-- After a run without RESET a channel is what the run's pushes on it make of it. -/
theorem runInstrs_chan {l : List Instr} {s : State} {ch : ChannelNo} (hl : ∀ i ∈ l, i ≠ .reset) (hc : s.cfg.Legal)
    (hinv : s.Inv) (hch : ch.toNat < s.cfg.nch) :
    ∃ t, runInstrs l s = .next t ∧ t.Inv
      ∧ t.chan ch.toNat = (samplesPushed ch l s).foldl (pushChannel s.cfg ch) (s.chan ch.toNat) := by
  induction l generalizing s with
  | nil => exact ⟨s, rfl, hinv, rfl⟩
  | cons i l ih =>
    obtain ⟨hi, hl⟩ := List.forall_mem_cons.1 hl
    obtain ⟨u, hu⟩ := exec_isNext i s
    have hcfg : u.cfg = s.cfg := (exec_cfg_inputs hu).1
    obtain ⟨t, ht, htinv, htchan⟩ := ih hl (hcfg ▸ hc) (hinv.exec hc hu) (hcfg ▸ hch)
    refine ⟨t, (runInstrs_cons hu).trans ht, htinv, ?_⟩
    rw [htchan, hcfg, exec_chan hi hinv hch hu, samplesPushed, hu, List.foldl_append]

/-- The cell before the next head is the head. -/
theorem pred_mod_succ_mod {n h : Nat} (hlt : h < n) : ((h + 1) % n + n - 1) % n = h := by
  rw [Nat.add_sub_assoc (by omega), Nat.mod_add_mod, show h + 1 + (n - 1) = h + n by omega, Nat.add_mod_right,
    Nat.mod_eq_of_lt hlt]

/-- Settles O28: the run leaves the channel's ring as its pushes do (`runInstrs_chan`), so that it holds the last
samples (`PushedSinceReset.pushes`), and one more PUSH averages the newest of them. -/
theorem meanIsOfTheLastSamples : Obligations.MeanIsOfTheLastSamples := by
  intro c ch l x hc hch hl
  obtain ⟨-, -, -, hn, -⟩ := id hc
  obtain ⟨t, hrun, hinv, hchan⟩ := runInstrs_chan hl hc (.initial hc) hch
  have hcfg : t.cfg = c := runInstrs_cfg hrun
  subst hcfg
  have hhad : PushedSinceReset t.cfg (t.chan ch.toNat) (samplesPushed ch l (State.initial t.cfg)).reverse := by
    simpa [hchan] using (PushedSinceReset.initial t.cfg).pushes hn ch (samplesPushed ch l (State.initial t.cfg))
  obtain ⟨-, hhead, hfill⟩ := hhad.push hn ch x
  have hheld := hhad.held_after_push hn ch x
  have hmean := hhad.mean_after_push hn x
  have hfilt := pushChannel_filt_toNat t.cfg ch (t.chan ch.toNat) x
  have hsum := sumOfTheHeldIsSumOfTheRing t _ ch x hc hinv hch rfl
  have hprev : ((pushChannel t.cfg ch (t.chan ch.toNat) x).head.toNat + t.cfg.n - 1) % t.cfg.n
      = (t.chan ch.toNat).head.toNat := by
    obtain ⟨hn1, hn16⟩ := hn
    obtain ⟨hk, -⟩ := hinv.channel hch
    rw [pushChannel_head _ _ _ _ hn1 hn16, pred_mod_succ_mod hk.head_lt]
  rw [List.length_cons, List.length_reverse] at hhead hfill
  rw [List.length_reverse] at hheld hmean
  rw [pushSample_chan_same x hinv hch, hfill, hheld] at hsum
  rw [hmean] at hfilt
  refine ⟨t, _, hrun, rfl, ?_⟩
  dsimp only
  rw [pushSample_chan_same x hinv hch, hprev, hfill]
  exact ⟨rfl, hhead, hheld, hsum.symm, hfilt, by rw [pushSample_of_present x hch]; rfl⟩

end Sys2Proof.Machine

/-! # Alarm unit: LEVEL, LEVELF, PRESET_NEXT (43_alarm.md) -/

namespace Sys2Proof.Machine

/-! ## The level and its tone pair (43_alarm.md R150, R155) -/

theorem exec_level (d : Word) (s : State) : exec (.level d) s = .next (soundLevel d s) := rfl

theorem exec_levelf (ch : ChannelNo) (s : State) : exec (.levelf ch) s
    = .next (if ch.toNat < s.cfg.nch then soundLevel (s.chan ch.toNat).filt s else s.answer 0) := rfl

theorem toneOf_zero {c : Config} (h : c.ToneOk) : toneOf c 0 = ⟨0, 0⟩ := by
  rw [toneOf, Vector.getElem?_eq_getElem (show 0 < 6 by decide), Option.getD_some, h]

section LoadLevel
variable (c : Config) (a : Alarm) {l : Nat} (hl : l ≤ 5)
include hl

/-- A level fits the 3 bits of its register. -/
theorem loadLevel_level_toNat : (loadLevel c l a).level.toNat = l :=
  Nat.mod_eq_of_lt (show l < 2 ^ 3 by omega)

/-- The level register widened is what LEVEL returns: no bit of the level is lost in the register. -/
theorem loadLevel_level_setWidth : (loadLevel c l a).level.setWidth 16 = BitVec.ofNat 16 l := by
  rw [← BitVec.ofNat_toNat, loadLevel_level_toNat c a hl]

theorem loadLevel_tone : c.tone[(loadLevel c l a).level.toNat]?
    = some ⟨(loadLevel c l a).pwmPeriod, (loadLevel c l a).pwmDuty⟩ := by
  have hentry : c.tone[l]? = some (toneOf c l) := by
    rw [toneOf, Vector.getElem?_eq_getElem (show l < 6 by omega), Option.getD_some]
  rw [loadLevel_level_toNat c a hl, hentry]
  rfl

end LoadLevel

/-- Level 0 is silence (43_alarm.md R150). -/
theorem loadLevel_zero_silences {c : Config} (h : c.ToneOk) (a : Alarm) :
    (loadLevel c 0 a).pwmPeriod = 0 ∧ (loadLevel c 0 a).pwmDuty = 0 :=
  ⟨congrArg Tone.period (toneOf_zero h), congrArg Tone.duty (toneOf_zero h)⟩

theorem soundLevel_alarm (d : Word) {s : State} (h : s.alarm.presetIdx.toNat < 5) :
    (soundLevel d s).alarm
      = loadLevel s.cfg (levelFor s.cfg.presetBank[s.alarm.presetIdx.toNat] d) s.alarm := by
  rw [← presetTable_of_lt s.cfg h]
  rfl

/-- LEVEL writes the level and the tone pair, answers with the level, and changes nothing else. -/
theorem soundLevel_frame (d : Word) (s : State) :
    soundLevel d s = { s with
      alarm := { s.alarm with
        level := (soundLevel d s).alarm.level
        pwmPeriod := (soundLevel d s).alarm.pwmPeriod
        pwmDuty := (soundLevel d s).alarm.pwmDuty }
      out := ⟨(soundLevel d s).alarm.level.setWidth 16, false⟩ } := by
  have hanswer := loadLevel_level_setWidth s.cfg s.alarm (levelFor_le (presetTable s.cfg s.alarm.presetIdx) d)
  exact congrArg (fun r => { soundLevel d s with out := ⟨r, false⟩ }) hanswer.symm

/-- Settles O32: the level loaded is `levelFor` of the active table, which is 5 minus the first match
(`levelFor_match`) or 0 (`levelFor_none`). -/
theorem levelIsTheFirstExactMatch : Obligations.LevelIsTheFirstExactMatch := by
  refine ⟨fun _ => rfl, fun s d h hc => ⟨_, exec_level d s, soundLevel_frame d s, ?_⟩⟩
  obtain ⟨-, -, -, -, -, -, -, -, htone⟩ := hc
  have hle := levelFor_le s.cfg.presetBank[s.alarm.presetIdx.toNat] d
  have hlevel := loadLevel_level_toNat s.cfg s.alarm hle
  rw [soundLevel_alarm d h]
  refine ⟨fun i hi hfirst => ?_, fun hnone => ?_, loadLevel_tone s.cfg s.alarm hle⟩
  · exact hlevel.trans (levelFor_match _ d i hi hfirst)
  · have hzero := levelFor_none _ d hnone
    exact ⟨hlevel.trans hzero, hzero ▸ loadLevel_zero_silences htone s.alarm⟩

/-! ## LEVELF and PRESET_NEXT (43_alarm.md R152, R153) -/

/-- Settles O33: LEVELF asks first whether the configuration has the channel. -/
theorem levelfIsLevelOfTheFilteredValue : Obligations.LevelfIsLevelOfTheFilteredValue := by
  refine ⟨fun ch => ?_, fun s ch => ⟨fun hch => ?_, fun hch => ?_, _, exec_levelf ch s⟩⟩
  · rw [← channelSel_eq_append]
    rfl
  · rw [exec_levelf, if_pos hch, exec_level]
  · rw [exec_levelf, if_neg hch]
    rfl

/-- The next index fits the 3 bits of its register. -/
theorem nextPreset_toNat (i : BitVec 3) : (nextPreset i).toNat = (i.toNat + 1) % 5 :=
  Nat.mod_eq_of_lt (show (i.toNat + 1) % 5 < 2 ^ 3 by omega)

/-- Settles O34: PRESET_NEXT writes the index and its answer alone, and the index is `nextPreset`. -/
theorem presetNextCyclesTheIndex : Obligations.PresetNextCyclesTheIndex :=
  ⟨rfl, fun s => ⟨_, rfl, rfl, nextPreset_toNat s.alarm.presetIdx⟩⟩

end Sys2Proof.Machine

/-! # Frame codec: ENCF, the round trip of a frame, a value over the wire (44_frame_codec.md R167, R170) -/

namespace Sys2Proof.Machine

/-! ## ENCF (44_frame_codec.md R167) -/

theorem exec_encf (m : Bool) (ch : ChannelNo) (s : State) : exec (.encf m ch) s
    = .next (if ch.toNat < s.cfg.nch then buildFrame m (s.chan ch.toNat).filt s else s.answer 0) := rfl

/-- The mode bit and the channel bits of `sel` do not overlap (30_encoding.md R83). -/
theorem modeSel_or_channelSel (m : Bool) (ch : ChannelNo) :
    modeSel m ||| channelSel ch = (BitVec.ofBool m ++ 0#5) ++ ch := by
  revert m ch
  decide

/-- Settles O36: ENCF asks first whether the configuration has the channel. -/
theorem encfIsEncOfTheFilteredValue : Obligations.EncfIsEncOfTheFilteredValue := by
  refine ⟨fun m ch => ?_, fun s m ch => ⟨fun hch => ?_, fun hch => ?_, _, exec_encf m ch s⟩⟩
  · rw [← modeSel_or_channelSel]
    rfl
  · rw [exec_encf, if_pos hch, exec_enc]
  · rw [exec_encf, if_neg hch]
    rfl

/-! ## What a receiver holds of the frame it is receiving (45_transport.md R182) -/

/-- A receiver that is on and has stored exactly `bytes` since it began the frame: they stand at the front of its
buffer, and the index counts them modulo `RX_CAP`. -/
structure Received (c : Config) (r : Receive) (bytes : List Byte) : Prop where
  enabled : r.en = true
  size : r.buf.length = c.rxCap
  cells : bytes <+: r.buf
  idx_eq : r.idx.toNat = bytes.length % c.rxCap

/-- The receiver after the receive events of `bytes`, in order. -/
def receiveRun (c : Config) (bytes : List Byte) (r : Receive) : Receive :=
  bytes.foldl (fun r b => receiveByte c b r) r

section Received
variable {c : Config} {r : Receive} {b : Byte} {bytes more : List Byte}

theorem receiveRun_append (more : List Byte) :
    receiveRun c (bytes ++ more) r = receiveRun c more (receiveRun c bytes r) := List.foldl_append

theorem Received.start (hen : r.en = true) (hlen : r.buf.length = c.rxCap) (hidx : r.idx = 0) : Received c r [] where
  enabled := hen
  size := hlen
  cells := ⟨r.buf, rfl⟩
  idx_eq := by rw [hidx, List.length_nil, Nat.zero_mod]; rfl

/-- A byte written right behind the bytes a buffer begins with: the buffer begins with these and that byte. -/
theorem append_singleton_isPrefix_memWrite {buf : List Byte} (h : bytes <+: buf) (hlt : bytes.length < buf.length)
    (b : Byte) : bytes ++ [b] <+: memWrite buf bytes.length b := by
  obtain ⟨rest, rfl⟩ := h
  cases rest with
  | nil => simp at hlt
  | cons old rest => exact ⟨rest, by simp [memWrite]⟩

/-- A payload byte is stored behind the bytes received so far; with the last cell filled the index is back at 0. -/
theorem Received.store (h : Received c r bytes) (hcap : c.rxCap ≤ 8) (hlt : bytes.length < c.rxCap)
    (hb : b ≠ sentinel) : Received c (receiveByte c b r) (bytes ++ [b]) := by
  have hidx : r.idx.toNat = bytes.length := h.idx_eq.trans (Nat.mod_eq_of_lt hlt)
  have hstore : receiveByte c b r = storeByte c b r := by rw [receiveByte, if_pos h.enabled, if_neg hb]
  rw [hstore]
  refine ⟨h.enabled, (length_memWrite _ _ _).trans h.size, ?_, ?_⟩
  · have := append_singleton_isPrefix_memWrite h.cells (hlt.trans_eq h.size.symm) b
    rwa [← hidx] at this
  · rw [List.length_append, List.length_singleton, storeByte, hidx]
    split
    · next hfull =>
      rw [hfull, Nat.mod_self]
      rfl
    · rw [Nat.mod_eq_of_lt (by omega)]
      bv_omega

/-- Payload bytes that fit the buffer are stored one behind the other. -/
theorem Received.stores (h : Received c r bytes) (hcap : c.rxCap ≤ 8) (hfit : (bytes ++ more).length ≤ c.rxCap)
    (hmore : sentinel ∉ more) : Received c (receiveRun c more r) (bytes ++ more) := by
  induction more generalizing r bytes with
  | nil => rwa [List.append_nil]
  | cons b more ih =>
    rw [List.mem_cons, not_or] at hmore
    obtain ⟨hb, hmore⟩ := hmore
    rw [List.append_cons] at hfit ⊢
    have hlt : bytes.length < c.rxCap := by simp only [List.length_append, List.length_singleton] at hfit; omega
    exact ih (h.store hcap hlt (Ne.symm hb)) hfit hmore

/-- The sentinel closes the frame and is not stored. -/
theorem Received.close (h : Received c r bytes) : receiveByte c sentinel r = closeFrame r := by
  rw [receiveByte, if_pos h.enabled, if_pos rfl]

/-- The cells received read back. -/
theorem memRead_of_isPrefix {buf : List Byte} (h : bytes <+: buf) {i : Nat} (hi : i < bytes.length) :
    memRead buf i = memRead bytes i := by
  obtain ⟨rest, rfl⟩ := h
  simp only [memRead, List.getD_append _ _ _ _ hi]

end Received

theorem runInstrs_singleton (i : Instr) (s : State) : runInstrs [i] s = exec i s := by
  obtain ⟨t, ht⟩ := exec_isNext i s
  rw [runInstrs_cons ht, ht]
  rfl

/-- A run of receive events is `receiveRun` on the receive side, and writes nothing else but the answer. -/
theorem runInstrs_rxBytes (bytes : List Byte) (s : State) :
    ∃ o, runInstrs (rxBytes bytes) s = .next { s with rx := receiveRun s.cfg bytes s.rx, out := o } := by
  induction bytes generalizing s with
  | nil => exact ⟨s.out, rfl⟩
  | cons b bytes ih => exact ih ({ s with rx := receiveByte s.cfg b s.rx }.answer 0)

/-! ## The round trip of a frame (44_frame_codec.md R170) -/

/-- The frame without its sentinel (30_encoding.md R86). -/
def payloadOf (c : Config) (m : Bool) (v : Word) : List Byte :=
  digitWalk 4 v.toNat ++ [BitVec.ofNat 8 (0x30 + digitCount v.toNat)]
    ++ (if c.hasModeTag then [modeTagOf c m] else [])

section Payload
variable (c : Config) (m : Bool) (v : Word)

/-- The digits and the count tag are always there. -/
theorem five_le_payloadLen : 5 ≤ c.payloadLen := by
  rw [payloadLen_eq]
  split <;> decide

theorem frameOf_eq_payloadOf : frameOf c m v = payloadOf c m v ++ [sentinel] := rfl

theorem length_payloadOf : (payloadOf c m v).length = c.payloadLen := by
  have h := length_frameOf c m v
  rw [frameOf_eq_payloadOf, List.length_append, List.length_singleton] at h
  rw [Config.payloadLen, ← h, Nat.add_sub_cancel]

theorem sentinel_notMem_payloadOf (h : c.ModeTagOk) : sentinel ∉ payloadOf c m v := by
  intro hmem
  obtain ⟨i, hi, hcell⟩ := List.mem_iff_getElem.1 hmem
  refine (builtFrame_frameOf c m v h).only_last i (hi.trans_eq (length_payloadOf c m v)) ?_
  rw [frameOf_eq_payloadOf, memRead_of_isPrefix ⟨[sentinel], rfl⟩ hi, memRead, List.getD_eq_getElem _ _ hi, hcell]
  rfl

theorem frameOf_digit {p : Nat} (hp : p < 4) :
    memRead (frameOf c m v) p = BitVec.ofNat 8 (0x30 + v.toNat / 10 ^ p % 10) := by
  have hslots : digitWalk 4 v.toNat <+: frameOf c m v := by simp [frameOf]
  have hlen : (digitWalk 4 v.toNat).length = 4 := rfl
  rw [memRead_of_isPrefix hslots (hlen ▸ hp), digitWalk_eq_map]
  simp [memRead, hp]

end Payload

/-- A receiver that has begun no frame takes in the whole frame of a value, also where the payload just fits: the buffer
begins with the payload, and the frame is closed. -/
theorem Received.frame {c c' : Config} {r : Receive} (h : Received c r []) (hc : c.RxCapOk) (hc' : c'.ModeTagOk)
    (hagree : c.hasModeTag = c'.hasModeTag) (m : Bool) (v : Word) :
    ∃ r', receiveRun c (frameOf c' m v) r = closeFrame r'
      ∧ ∀ i, i < c.payloadLen → memRead r'.buf i = memRead (frameOf c' m v) i := by
  have hlen : (payloadOf c' m v).length = c.payloadLen := by
    rw [length_payloadOf, payloadLen_eq, payloadLen_eq, hagree]
  have hpayload : Received c (receiveRun c (payloadOf c' m v) r) (payloadOf c' m v) :=
    h.stores hc.2 (hlen.trans_le hc.1) (sentinel_notMem_payloadOf c' m v hc')
  refine ⟨receiveRun c (payloadOf c' m v) r, ?_, fun i hi => ?_⟩
  · rw [frameOf_eq_payloadOf, receiveRun_append]
    exact hpayload.close
  · have hi' : i < (payloadOf c' m v).length := hi.trans_eq hlen.symm
    rw [memRead_of_isPrefix hpayload.cells hi', frameOf_eq_payloadOf, memRead_of_isPrefix ⟨[sentinel], rfl⟩ hi']

theorem exec_consume_of_ready {s : State} (h : s.rx.frameReady = true) : exec .consume s
    = .next ({ s with disp := showFrame s.cfg s.rx.buf s.disp, rx := releaseBuffer s.rx }.answer 1) :=
  congrArg Host.Outcome.next (if_pos h)

theorem showFrame_digit (c : Config) (buf : List Byte) (d : Display) {p : Nat} (hp : p < 4) :
    (showFrame c buf d).digit[p] = memRead buf p := by
  match p with
  | 0 | 1 | 2 | 3 => rfl

/-- A recognised tag, with a recognised mode where there is one, is read back as its count (46_display.md R201). -/
theorem activeCount_of_tag {c : Config} {d : Display} {k : Nat} (hk : 1 ≤ k ∧ k ≤ 4)
    (htag : d.tag = BitVec.ofNat 8 (0x30 + k)) (hmode : modeRecognised c d = true) : activeCount c d = k := by
  obtain ⟨h1, h4⟩ := hk
  have hrange : 0x31 ≤ d.tag ∧ d.tag ≤ 0x34 := by
    rw [htag]
    constructor <;> bv_omega
  rw [activeCount, if_pos ⟨hrange.1, hrange.2, hmode⟩, htag]
  bv_omega

theorem modeRecognised_of_no_tag {c : Config} {d : Display} (h : c.hasModeTag = false) : modeRecognised c d = true := by
  simp [modeRecognised, h]

theorem modeRecognised_of_modeTagOf {c : Config} {d : Display} {m : Bool} (h : d.mode = modeTagOf c m) :
    modeRecognised c d = true := by
  cases m <;> simp [modeRecognised, h, modeTagOf]

/-- The display that shows a received frame reads the frame's count, if the nodes agree on the mode tags. -/
theorem activeCount_showFrame {c c' : Config} {buf : List Byte} (d : Display) (m : Bool) (v : Word)
    (hagree : c.hasModeTag = c'.hasModeTag) (htags : c.modeTag = c'.modeTag)
    (hbuf : ∀ i, i < c.payloadLen → memRead buf i = memRead (frameOf c' m v) i) :
    activeCount c (showFrame c buf d) = digitCount v.toNat := by
  have hcells := five_le_payloadLen c
  have htag : (showFrame c buf d).tag = BitVec.ofNat 8 (0x30 + digitCount v.toNat) :=
    (hbuf 4 (by omega)).trans (frameOf_countTag c' m v)
  refine activeCount_of_tag (digitCount_range v.toNat) htag ?_
  cases hm : c.hasModeTag with
  | false => exact modeRecognised_of_no_tag hm
  | true =>
    have hcells : c.payloadLen = 6 := (payloadLen_eq c).trans (if_pos hm)
    refine modeRecognised_of_modeTagOf (m := m) ?_
    calc (showFrame c buf d).mode = memRead buf 5 := if_pos hm
      _ = memRead (frameOf c' m v) 5 := hbuf 5 (by omega)
      _ = modeTagOf c' m := frameOf_modeTag c' m v (hagree ▸ hm)
      _ = modeTagOf c m := by rw [modeTagOf, modeTagOf, htags]

/-- Settles O44: the receiver takes in the frame (`Received.frame`), and CONSUME shows its cells by position. -/
theorem frameRoundTrip : Obligations.FrameRoundTrip := by
  intro s r m v hs hr hagree hlen hen hidx
  obtain ⟨-, -, -, -, -, -, htagOk, -⟩ := hs
  obtain ⟨-, -, -, -, -, -, -, hcap, -⟩ := hr
  obtain ⟨rx, hrx, hbuf⟩ := (Received.start hen hlen hidx).frame hcap htagOk hagree m v
  obtain ⟨o, hreceive⟩ := runInstrs_rxBytes (frameOf s.cfg m v) r
  rw [hrx] at hreceive
  have hcells := five_le_payloadLen r.cfg
  refine ⟨_, _, exec_enc m v s, (runInstrs_append hreceive).trans (runInstrs_cons (exec_consume_of_ready rfl)),
    ?_, fun p hp => ?_, fun htags => ?_, rfl, rfl, rfl, rfl, rfl⟩
  · exact (hbuf 4 (by omega)).trans (frameOf_countTag s.cfg m v)
  · exact (showFrame_digit _ _ _ hp).trans ((hbuf p (by omega)).trans (frameOf_digit s.cfg m v hp))
  · exact activeCount_showFrame r.disp m v hagree htags hbuf

/-! ## Runs of the two nodes (60_exceptions.md R228, R229) -/

section LinkRun
variable {lossy : Bool} {l l' : Link} {e : LinkEvent} {es es' : List LinkEvent} {x : Input} {i : Instr} {t : State}

theorem linkRun_cons (h : linkStep lossy e l = .next l') : linkRun lossy (e :: es) l = linkRun lossy es l' := by
  simp only [linkRun, h]

theorem linkRun_append (h : linkRun lossy es l = .next l') :
    linkRun lossy (es ++ es') l = linkRun lossy es' l' := by
  induction es generalizing l with
  | nil => exact congrArg _ (Host.Outcome.next.inj h)
  | cons e es ih =>
    unfold linkRun at h
    split at h
    · next u hu => exact (linkRun_cons hu).trans (ih h)
    · cases h
    · cases h

@[simp] theorem inputInstr_encode (i : Instr) : inputInstr (.command (encode i)) = .ok i :=
  decodeOfEncodeIsTheInstruction i

@[simp] theorem inputInstr_txReady : inputInstr .txReady = .ok .txev := rfl

theorem linkStep_sensor (hl : l.sensor.cfg.Legal) (hx : inputInstr x = .ok i) (h : exec i l.sensor = .next t) :
    linkStep lossy (.sensor x) l = .next { l with sensor := t, sent := wireAfter l.sent t } := by
  simp only [linkStep, perform_of_legal hl hx, h]

theorem linkStep_display (hl : l.display.cfg.Legal) (hx : inputInstr x = .ok i) (hi : receivedByte i = none)
    (h : exec i l.display = .next t) : linkStep lossy (.display x) l = .next { l with display := t } := by
  simp [linkStep, isReceive, hx, hi, perform_of_legal hl hx, h]

theorem linkStep_deliver {b : Byte} (hl : l.display.cfg.Legal) (hb : l.sent[l.taken]? = some b)
    (h : exec (.rxev b) l.display = .next t) : linkStep lossy .deliver l
      = .next { l with display := t, taken := l.taken + 1, delivered := l.delivered ++ [b] } := by
  have hperform : perform (.rxIn b) l.display = .next t := (perform_of_legal hl rfl).trans h
  simp only [linkStep, hb, handOver, hperform]

/-- While the sensor node performs operations other than RESET, the wire has what its `wire_out` has. -/
theorem linkRun_sensor {xs : List Input} {ops : List Instr} (hl : l.sensor.cfg.Legal)
    (hx : xs.map inputInstr = ops.map .ok) (hreset : .reset ∉ ops) (hsent : l.sent = l.sensor.tx.wireOut)
    (hrun : runInstrs ops l.sensor = .next t) :
    linkRun lossy (xs.map .sensor) l = .next { l with sensor := t, sent := t.tx.wireOut } := by
  induction ops generalizing xs l with
  | nil =>
    obtain rfl := List.map_eq_nil_iff.1 hx
    obtain rfl : l.sensor = t := Host.Outcome.next.inj hrun
    rw [← hsent]
    rfl
  | cons i ops ih =>
    obtain ⟨x, xs, rfl, hxi, hxs⟩ := List.map_eq_cons_iff.1 hx
    rw [List.mem_cons, not_or] at hreset
    obtain ⟨hi, hreset⟩ := hreset
    obtain ⟨u, hu⟩ := exec_isNext i l.sensor
    rw [runInstrs_cons hu] at hrun
    rw [List.map_cons, linkRun_cons (linkStep_sensor hl hxi hu)]
    refine ih (l := { l with sensor := u, sent := _ }) ((exec_cfg_inputs hu).1 ▸ hl) hxs hreset ?_ hrun
    rw [hsent, exec_wireOut (Ne.symm hi) hu]

/-- As many deliveries as there are bytes on the wire give the display node these, in order. -/
theorem linkRun_deliver {bytes : List Byte} (hl : l.display.cfg.Legal) (hwire : l.sent.drop l.taken = bytes)
    (hrun : runInstrs (rxBytes bytes) l.display = .next t) :
    linkRun lossy (List.replicate bytes.length .deliver) l
      = .next { l with display := t, taken := l.taken + bytes.length, delivered := l.delivered ++ bytes } := by
  induction bytes generalizing l with
  | nil =>
    obtain rfl : l.display = t := Host.Outcome.next.inj hrun
    rw [List.append_nil]
    rfl
  | cons b bytes ih =>
    have hb : l.sent[l.taken]? = some b := by rw [← List.head?_drop, hwire, List.head?_cons]
    have hrest : l.sent.drop (l.taken + 1) = bytes := by rw [← List.drop_drop, hwire, List.drop_one, List.tail_cons]
    obtain ⟨u, hu⟩ := exec_isNext (.rxev b) l.display
    have hrun : runInstrs (rxBytes bytes) u = .next t := (runInstrs_cons hu).symm.trans hrun
    rw [List.length_cons, List.replicate_succ, linkRun_cons (linkStep_deliver hl hb hu),
      ih (l := { l with display := u, taken := _, delivered := _ }) ((exec_cfg_inputs hu).1 ▸ hl) hrest hrun,
      List.append_assoc, List.singleton_append, Nat.add_assoc, Nat.add_comm 1]

end LinkRun

/-- ENC, TXARM and a transmit event per byte put the value's frame on the wire between two reset nodes. -/
theorem linkRun_send {cs : Config} (hcs : cs.Legal) (cd : Config) (lossy m : Bool) (v : Word) :
    ∃ s, linkRun lossy ([.sensor (.command (encode (.enc m v))), .sensor (.command (encode .txarm))]
          ++ List.replicate cs.frameLen (.sensor .txReady)) (Link.initial cs cd)
        = .next { Link.initial cs cd with sensor := s, sent := s.tx.wireOut }
      ∧ s.frame = frameOf cs m v ∧ s.tx.wireOut = frameOf cs m v := by
  obtain ⟨⟨s, hsend, hframe, hwire, -⟩, -⟩ :=
    sendEmitsTheWholeFrame (buildFrame m v (State.initial cs)) hcs (length_frameOf cs m v)
  have hops : runInstrs (.enc m v :: sendOps cs) (State.initial cs) = .next s :=
    (runInstrs_cons (exec_enc m v _)).trans hsend
  have hinputs : List.map inputInstr ([.command (encode (.enc m v)), .command (encode .txarm)]
      ++ List.replicate cs.frameLen .txReady) = (.enc m v :: sendOps cs).map .ok := by
    simp [sendOps, txevs]
  have hrun := linkRun_sensor (lossy := lossy) (l := Link.initial cs cd) hcs hinputs (by simp [sendOps, txevs]) rfl hops
  rw [List.map_append, List.map_replicate] at hrun
  exact ⟨s, hrun, congrArg State.frame hframe, hwire⟩

/-- Settles O52: the sensor node puts the frame on the wire (`linkRun_send`), the deliveries give it to the display node
(`linkRun_deliver`), and what CONSUME then shows is the round trip of O44. -/
theorem valueCrossesTheWire : Obligations.ValueCrossesTheWire := by
  intro cs cd m v hcs hcd hagree
  obtain ⟨s, hsend, hframe, hwire⟩ := linkRun_send hcs cd false m v
  obtain ⟨f, t, hf, hround, htag, hdigit, -⟩ := frameRoundTrip (State.initial cs) (State.initial cd) m v hcs hcd
    hagree List.length_replicate rfl rfl
  obtain rfl : buildFrame m v (State.initial cs) = f := Host.Outcome.next.inj hf
  obtain ⟨o, hreceive⟩ := runInstrs_rxBytes (frameOf cs m v) (State.initial cd)
  have hconsume : exec .consume _ = .next t :=
    (runInstrs_singleton _ _).symm.trans ((runInstrs_append hreceive).symm.trans hround)
  have hdeliver := linkRun_deliver (lossy := false)
    (l := { Link.initial cs cd with sensor := s, sent := s.tx.wireOut }) hcd hwire hreceive
  rw [length_frameOf] at hdeliver
  refine ⟨{ sensor := s, display := t, sent := s.tx.wireOut, taken := 0 + cs.frameLen, delivered := frameOf cs m v },
    ?_, hwire.trans hframe.symm, hframe.symm, htag, hdigit⟩
  rw [linkRun_append ((linkRun_append hsend).trans hdeliver),
    linkRun_cons (linkStep_display hcd (inputInstr_encode .consume) rfl hconsume)]
  rfl

end Sys2Proof.Machine

/-! # Transport: TXARM, TXEV, RXEV, CONSUME and the overrun of the receive buffer (45_transport.md) -/

namespace Sys2Proof.Machine

/-! ## Receiving payload bytes (45_transport.md R182, R184) -/

theorem exec_rxev (b : Byte) (s : State) :
    exec (.rxev b) s = .next ({ s with rx := receiveByte s.cfg b s.rx }.answer 0) := rfl

section Receive
variable {c : Config} {r : Receive} {b : Byte} {bytes : List Byte}

theorem receiveByte_of_deaf (he : r.en = false) : receiveByte c b r = r := by
  rw [receiveByte, if_neg (Bool.eq_false_iff.1 he)]

theorem receiveByte_of_sentinel (he : r.en = true) : receiveByte c sentinel r = closeFrame r := by
  rw [receiveByte, if_pos he, if_pos rfl]

theorem receiveByte_of_payload (he : r.en = true) (hb : b ≠ sentinel) : receiveByte c b r = storeByte c b r := by
  rw [receiveByte, if_pos he, if_neg hb]

/-- Moving on and wrapping are one thing: counting modulo `RX_CAP`. -/
theorem storeByte_idx (hcap : c.rxCap ≤ 8) (hlt : r.idx.toNat < c.rxCap) :
    (storeByte c b r).idx.toNat = (r.idx.toNat + 1) % c.rxCap := by
  rw [storeByte]
  split
  · next hfull =>
    rw [hfull, Nat.mod_self]
    rfl
  · rw [Nat.mod_eq_of_lt (by omega)]
    bv_omega

theorem receiveRun_cons : receiveRun c (b :: bytes) r = receiveRun c bytes (receiveByte c b r) := rfl

/-- Payload bytes, however many, move the index modulo `RX_CAP` and leave both flags. -/
theorem receiveRun_of_payload (hcap : c.rxCap ≤ 8) (hlt : r.idx.toNat < c.rxCap) (he : r.en = true)
    (hbytes : sentinel ∉ bytes) :
    (receiveRun c bytes r).idx.toNat = (r.idx.toNat + bytes.length) % c.rxCap
      ∧ (receiveRun c bytes r).frameReady = r.frameReady ∧ (receiveRun c bytes r).en = true := by
  induction bytes generalizing r with
  | nil => exact ⟨(Nat.mod_eq_of_lt hlt).symm, rfl, he⟩
  | cons b bytes ih =>
    rw [List.mem_cons, not_or] at hbytes
    obtain ⟨hb, hbytes⟩ := hbytes
    have hidx : (storeByte c b r).idx.toNat = (r.idx.toNat + 1) % c.rxCap := storeByte_idx hcap hlt
    have hlt' : (storeByte c b r).idx.toNat < c.rxCap := hidx.trans_lt (Nat.mod_lt _ (Nat.zero_lt_of_lt hlt))
    obtain ⟨hcount, hready, hen⟩ := ih hlt' he hbytes
    rw [receiveRun_cons, receiveByte_of_payload he (Ne.symm hb)]
    refine ⟨?_, hready, hen⟩
    calc (receiveRun c bytes (storeByte c b r)).idx.toNat
        = ((r.idx.toNat + 1) % c.rxCap + bytes.length) % c.rxCap := by rw [hcount, hidx]
      _ = (r.idx.toNat + (b :: bytes).length) % c.rxCap := by
        rw [Nat.mod_add_mod, List.length_cons, Nat.add_assoc, Nat.add_comm 1]

/-- `RX_CAP` payload bytes from index 0 are the buffer: it begins with them and has no further cell. -/
theorem receiveRun_buf_of_full (hcap : c.rxCap ≤ 8) (hsize : r.buf.length = c.rxCap) (hidx : r.idx = 0)
    (he : r.en = true) (hbytes : sentinel ∉ bytes) (hfull : bytes.length = c.rxCap) :
    (receiveRun c bytes r).buf = bytes := by
  have hreceived : Received c (receiveRun c bytes r) bytes :=
    (Received.start he hsize hidx).stores hcap hfull.le hbytes
  exact (hreceived.cells.eq_of_length (hfull.trans hreceived.size.symm)).symm

end Receive

/-- Settles O42: the run of receive events is `receiveRun`, which counts modulo `RX_CAP` and leaves the flags. -/
theorem overrunWrapsSilently : Obligations.OverrunWrapsSilently := by
  intro s l hlegal hsize hlt hen hl
  obtain ⟨-, -, -, -, -, -, -, ⟨-, hcap⟩, -⟩ := hlegal
  obtain ⟨o, hrun⟩ := runInstrs_rxBytes l s
  obtain ⟨hidx, hready, hen'⟩ := receiveRun_of_payload hcap hlt hen hl
  exact ⟨_, hrun, hidx, hready, hen', rfl, fun hfull h0 => receiveRun_buf_of_full hcap hsize h0 hen hl hfull⟩

/-- Settles O41, by the three cases of a receive event. -/
theorem rxevStoresOrCloses : Obligations.RxevStoresOrCloses := by
  refine ⟨fun b => ⟨rfl, rfl⟩, fun s b hlegal hlt hsize => ?_⟩
  obtain ⟨-, -, -, -, -, -, -, ⟨-, hcap⟩, -⟩ := hlegal
  refine ⟨_, exec_rxev b s, rfl, receiveByte_of_deaf, ?_, fun hen hb => ?_⟩
  · rintro hen rfl
    exact receiveByte_of_sentinel hen
  · have hidx : (storeByte s.cfg b s.rx).idx.toNat = (s.rx.idx.toNat + 1) % s.cfg.rxCap := storeByte_idx hcap hlt
    rw [State.answer_rx, receiveByte_of_payload hen hb]
    refine ⟨rfl, memRead_memWrite_same _ _ _ (hlt.trans_eq hsize.symm), fun i hi => memRead_memWrite_ne _ _ _ _ hi,
      fun hlast => ?_, fun hmore => ?_⟩
    · rw [hidx, hlast, Nat.mod_self]
    · rw [hidx, Nat.mod_eq_of_lt (by omega)]

/-! ## Sending (45_transport.md R180, R181) -/

section Send
variable {c : Config} {x : Transmit} {s : State}

theorem exec_txev_of_armed (h : s.tx.en = true) : exec .txev s = .next (s.afterSending (nextTxByte s.tx)) :=
  congrArg Host.Outcome.next (if_pos h)

theorem exec_txev_of_disarmed (h : s.tx.en = false) : exec .txev s = .next (s.answer 0) :=
  congrArg Host.Outcome.next (if_neg (Bool.eq_false_iff.1 h))

/-- The 3-bit index has room for `FRAME_LEN`. -/
theorem sendByte_idx (h : x.idx.toNat < c.frameLen) : (sendByte c x).idx.toNat = x.idx.toNat + 1 := by
  have := frameLen_range c
  rw [sendByte]
  bv_omega

theorem sendByte_en (h : x.en = true) : (sendByte c x).en = true ↔ x.idx.toNat + 1 ≠ c.frameLen := by
  simp [sendByte, h]

end Send

/-- Settles O38: TXARM is `armSend` on the transmit side (`exec_txarm`). -/
theorem txarmCopiesTheFrame : Obligations.TxarmCopiesTheFrame := ⟨rfl, fun _ => exec_txarm⟩

/-- Settles O39: an armed event sends `nextTxByte`, one that is not armed answers 0. -/
theorem txevSendsTheNextByte : Obligations.TxevSendsTheNextByte := by
  refine ⟨rfl, rfl, fun s _ => ⟨fun hen hlt => ?_, exec_txev_of_disarmed⟩⟩
  exact ⟨_, exec_txev_of_armed hen, rfl, rfl, rfl, rfl, sendByte_idx hlt, sendByte_en hen⟩

/-! ## The hand-off, and the two directions (45_transport.md R183, R185) -/

theorem exec_consume_of_not_ready {s : State} (h : s.rx.frameReady = false) :
    exec .consume s = .next (s.answer 0) :=
  congrArg Host.Outcome.next (if_neg (Bool.eq_false_iff.1 h))

theorem showFrame_mode (c : Config) (buf : List Byte) (d : Display) :
    (showFrame c buf d).mode = if c.hasModeTag then memRead buf 5 else d.mode := rfl

/-- Settles O43: with a frame ready the display is `showFrame` of the buffer. -/
theorem consumeHandsTheFrameOver : Obligations.ConsumeHandsTheFrameOver := by
  refine ⟨rfl, fun s => ⟨exec_consume_of_not_ready, fun hready => ?_⟩⟩
  refine ⟨_, exec_consume_of_ready hready, rfl, fun p hp => showFrame_digit _ _ _ hp, rfl, fun htag => ?_,
    fun htag => ?_, rfl, rfl, rfl⟩
  · exact (showFrame_mode _ _ _).trans (if_pos htag)
  · exact (showFrame_mode _ _ _).trans (if_neg (Bool.eq_false_iff.1 htag))

section Directions
variable (s : State)

/-- TXEV branches on the transmit side's own enable. -/
theorem exec_txev_replace_receive (r : Receive) (d : Display) :
    ∃ t, exec .txev s = .next t ∧ exec .txev { s with rx := r, disp := d } = .next { t with rx := r, disp := d } := by
  cases hen : s.tx.en with
  | false =>
    exact ⟨_, exec_txev_of_disarmed hen, exec_txev_of_disarmed (s := { s with rx := r, disp := d }) hen⟩
  | true => exact ⟨_, exec_txev_of_armed hen, exec_txev_of_armed (s := { s with rx := r, disp := d }) hen⟩

/-- CONSUME branches on the receive side's own flag. -/
theorem exec_consume_replace_transmit (f : List Byte) (x : Transmit) :
    ∃ t, exec .consume s = .next t
      ∧ exec .consume { s with frame := f, tx := x } = .next { t with frame := f, tx := x } := by
  cases hready : s.rx.frameReady with
  | false =>
    exact ⟨_, exec_consume_of_not_ready hready, exec_consume_of_not_ready (s := { s with frame := f, tx := x }) hready⟩
  | true => exact ⟨_, exec_consume_of_ready hready, exec_consume_of_ready (s := { s with frame := f, tx := x }) hready⟩

end Directions

/-- Settles O45, operation by operation: TXARM and RXEV do not branch on a flag, TXEV and CONSUME do. -/
theorem directionsAreIndependent : Obligations.DirectionsAreIndependent := by
  refine fun s b r d f x => ⟨?_, ?_⟩
  · rintro i (rfl | rfl)
    · exact ⟨_, exec_txarm, exec_txarm⟩
    · exact exec_txev_replace_receive s r d
  · rintro i (rfl | rfl)
    · exact ⟨_, exec_rxev b s, exec_rxev b { s with frame := f, tx := x }⟩
    · exact exec_consume_replace_transmit s f x

end Sys2Proof.Machine

/-! # Display unit: the active count, the segment patterns, SCAN and a pass of SCANs (46_display.md) -/

namespace Sys2Proof.Machine

/-! ## The active count (46_display.md R201) -/

section ActiveCount
variable {c : Config} {d : Display}

theorem mem_countTags_iff (b : Byte) : b ∈ ([0x31, 0x32, 0x33, 0x34] : List Byte) ↔ 0x31 ≤ b ∧ b ≤ 0x34 := by
  simp only [List.mem_cons, List.not_mem_nil, or_false]
  bv_omega

theorem modeRecognised_iff : modeRecognised c d = true
    ↔ (c.hasModeTag = true → d.mode = c.modeTag[0] ∨ d.mode = c.modeTag[1]) := by
  cases hm : c.hasModeTag <;> simp [modeRecognised, hm]

theorem activeCount_of_recognised (htag : d.tag ∈ ([0x31, 0x32, 0x33, 0x34] : List Byte))
    (hmode : modeRecognised c d = true) : activeCount c d = d.tag.toNat - 0x30 := by
  obtain ⟨h1, h4⟩ := (mem_countTags_iff d.tag).1 htag
  refine activeCount_of_tag ?_ ?_ hmode <;> bv_omega

theorem activeCount_of_unknown_tag (htag : d.tag ∉ ([0x31, 0x32, 0x33, 0x34] : List Byte)) : activeCount c d = 0 :=
  if_neg fun ⟨h1, h4, _⟩ => htag ((mem_countTags_iff d.tag).2 ⟨h1, h4⟩)

theorem activeCount_of_unknown_mode (hmode : modeRecognised c d ≠ true) : activeCount c d = 0 :=
  if_neg fun ⟨_, _, h⟩ => hmode h

end ActiveCount

/-- Settles O47, by whether the tag and the mode are recognised. -/
theorem activeCountIsReadFromTheTags : Obligations.ActiveCountIsReadFromTheTags := by
  refine fun c d => ⟨fun htag hmode => activeCount_of_recognised htag (modeRecognised_iff.2 hmode),
    activeCount_of_unknown_tag, fun htagged h0 h1 => activeCount_of_unknown_mode fun h => ?_⟩
  exact (modeRecognised_iff.1 h htagged).elim h0 h1

/-! ## Segment patterns (46_display.md R202) -/

theorem segpat_digit (c : Config) {k : Nat} (hk : k < 10) : segpat c (BitVec.ofNat 8 (0x30 + k)) = ~~~ c.segmap[k] := by
  have hdigit : (0x30 : Byte) ≤ BitVec.ofNat 8 (0x30 + k) ∧ BitVec.ofNat 8 (0x30 + k) ≤ 0x39 := by bv_omega
  have hplace : (BitVec.ofNat 8 (0x30 + k) - 0x30).toNat = k := by bv_omega
  rw [segpat, if_pos hdigit, hplace, Vector.getElem?_eq_getElem hk, Option.getD_some]
  exact BitVec.allOnes_sub_eq_not _

theorem segpat_of_no_digit (c : Config) {b : Byte} (h : ∀ k, k < 10 → b ≠ BitVec.ofNat 8 (0x30 + k)) :
    segpat c b = 0xFF :=
  if_neg fun ⟨h0, h9⟩ => h (b.toNat - 0x30) (by bv_omega) (by bv_omega)

/-- Settles O48: a byte is one of the ten digits or none. -/
theorem segmentPatternOfAByte : Obligations.SegmentPatternOfAByte := by
  refine fun c b => ⟨fun k hk hb => ?_, segpat_of_no_digit c⟩
  rw [hb, segpat_digit c hk]

/-! ## One SCAN (46_display.md R200) -/

/-- The state after SCAN. -/
def State.afterScan (s : State) : State :=
  { s with disp := scanStep s.cfg s.disp }.answer (busWord (scanStep s.cfg s.disp))

theorem exec_scan (s : State) : exec .scan s = .next s.afterScan := rfl

section ScanStep
variable {c : Config} {d : Display}

theorem busWord_eq (d : Display) : busWord d = BitVec.ofNat 16 (d.dsel.toNat * 256 + d.seg.toNat) := by
  unfold busWord
  bv_omega

theorem scanStep_of_inactive (h : activeCount c d = 0) : scanStep c d = scanDark d := if_pos h

theorem scanStep_of_active (h : activeCount c d ≠ 0) :
    scanStep c d = scanLight c d (scanPlace d (activeCount c d)) (activeCount c d) := if_neg h

/-- SCAN writes the buses and the place alone. -/
theorem scanStep_frame (c : Config) (d : Display) : scanStep c d
    = { d with scanIdx := (scanStep c d).scanIdx, seg := (scanStep c d).seg, dsel := (scanStep c d).dsel } := by
  rcases scanStep_cases c d with ⟨-, e⟩ | ⟨-, e⟩ <;> rw [e] <;> rfl

/-- The 4-bit line bus has a line for each of the four places. -/
theorem scanLight_dsel {p : Nat} (hp : p < 4) (k : Nat) : (scanLight c d p k).dsel.toNat = 2 ^ p :=
  Nat.mod_eq_of_lt (Nat.pow_lt_pow_right (by decide) hp)

theorem scanLight_seg {p : Nat} (hp : p < 4) (k : Nat) : (scanLight c d p k).seg = segpat c d.digit[p] := by
  rw [scanLight, Vector.getElem?_eq_getElem hp, Option.getD_some]

/-- The 2-bit place has room for every place below an active count. -/
theorem scanLight_scanIdx {k : Nat} (hk : 0 < k) (hk4 : k ≤ 4) (p : Nat) :
    (scanLight c d p k).scanIdx.toNat = (p + 1) % k :=
  Nat.mod_eq_of_lt ((Nat.mod_lt _ hk).trans_le hk4)

end ScanStep

/-- Settles O49: SCAN is `scanStep`, dark at count 0 and else lighting `scanPlace`, which is below the count. -/
theorem scanLightsTheNextPlace : Obligations.ScanLightsTheNextPlace := by
  refine ⟨rfl, fun s => ⟨s.afterScan, exec_scan s, ?_, fun hc => ?_, fun hc => ?_⟩⟩
  · rw [← busWord_eq]
    exact congrArg (fun d => { s with disp := d, out := ⟨busWord (scanStep s.cfg s.disp), false⟩ })
      (scanStep_frame s.cfg s.disp)
  · rw [State.afterScan, State.answer_disp, scanStep_of_inactive hc]
    exact ⟨rfl, rfl, rfl⟩
  · have hc4 : activeCount s.cfg s.disp ≤ 4 := activeCount_le s.cfg s.disp
    have hp : scanPlace s.disp (activeCount s.cfg s.disp) < 4 := (scanPlace_lt hc).trans_le hc4
    rw [State.afterScan, State.answer_disp, scanStep_of_active hc]
    exact ⟨hp, scanLight_dsel hp _, scanLight_seg hp _, scanLight_scanIdx (Nat.pos_of_ne_zero hc) hc4 _⟩

/-! ## A pass of SCANs (46_display.md R204) -/

/-- What the two buses show while place `p` is lit. -/
def litBuses (c : Config) (d : Display) (p : Nat) : BitVec 4 × Byte :=
  (BitVec.ofNat 4 (2 ^ p), segpat c (d.digit[p]?.getD 0))

/-- In a pass over the active places, place `p` is next; at the end of the pass that is place 0 again. -/
structure AtPlace (c : Config) (d : Display) (p : Nat) : Prop where
  active : activeCount c d ≠ 0
  place : d.scanIdx.toNat = p % activeCount c d

section Pass
variable {c : Config} {d : Display} {s : State} {p n : Nat}

theorem AtPlace.start (hc : activeCount c d ≠ 0) (h0 : d.scanIdx = 0) : AtPlace c d 0 where
  active := hc
  place := by rw [h0, Nat.zero_mod]; rfl

theorem AtPlace.scanStep_eq (h : AtPlace c d p) (hp : p < activeCount c d) :
    scanStep c d = scanLight c d p (activeCount c d) := by
  have hplace : d.scanIdx.toNat = p := h.place.trans (Nat.mod_eq_of_lt hp)
  rw [scanStep_of_active h.active, scanPlace, hplace, if_pos hp]

theorem AtPlace.next (h : AtPlace c d p) : AtPlace c (scanLight c d p (activeCount c d)) (p + 1) where
  active := h.active
  place := scanLight_scanIdx (Nat.pos_of_ne_zero h.active) (activeCount_le c d) p

/-- At the end of a pass the next place is place 0. -/
theorem AtPlace.wrap (h : AtPlace c d p) (hp : p = activeCount c d) : d.scanIdx = 0 :=
  BitVec.eq_of_toNat_eq (h.place.trans (hp ▸ Nat.mod_self _))

theorem AtPlace.afterScan_disp (h : AtPlace s.cfg s.disp p) (hp : p < activeCount s.cfg s.disp) :
    s.afterScan.disp = scanLight s.cfg s.disp p (activeCount s.cfg s.disp) := h.scanStep_eq hp

theorem AtPlace.afterScan (h : AtPlace s.cfg s.disp p) (hp : p < activeCount s.cfg s.disp) :
    AtPlace s.afterScan.cfg s.afterScan.disp (p + 1) := h.afterScan_disp hp ▸ h.next

/-- SCAN does not write the tags. -/
theorem activeCount_afterScan (s : State) :
    activeCount s.afterScan.cfg s.afterScan.disp = activeCount s.cfg s.disp :=
  (congrArg (activeCount s.cfg) (scanStep_frame s.cfg s.disp)).trans rfl

theorem observations_scans_succ (n : Nat) (s : State) :
    observations (scans (n + 1)) s = s.afterScan.pins :: observations (scans n) s.afterScan :=
  observations_cons (exec_scan s)

/-- The SCANs left in a pass light the places left in it. -/
theorem observations_scans (h : AtPlace s.cfg s.disp p) (hn : p + n = activeCount s.cfg s.disp) :
    (observations (scans n) s).map (fun o => (o.dselOut, o.segOut))
      = (List.range' p n).map (litBuses s.cfg s.disp) := by
  induction n generalizing s p with
  | zero => rfl
  | succ n ih =>
    have hp : p < activeCount s.cfg s.disp := by omega
    have hrest := ih (h.afterScan hp) (by rw [activeCount_afterScan]; omega)
    rw [observations_scans_succ, List.map_cons, hrest, List.range'_succ, List.map_cons, State.pins, h.afterScan_disp hp]
    rfl

/-- The SCANs left in a pass end it, and change neither digits nor tag. -/
theorem runInstrs_scans (h : AtPlace s.cfg s.disp p) (hn : p + n = activeCount s.cfg s.disp) :
    ∃ t, runInstrs (scans n) s = .next t ∧ t.disp.scanIdx = 0
      ∧ t.disp.digit = s.disp.digit ∧ t.disp.tag = s.disp.tag := by
  induction n generalizing s p with
  | zero => exact ⟨s, rfl, h.wrap hn, rfl, rfl⟩
  | succ n ih =>
    have hp : p < activeCount s.cfg s.disp := by omega
    obtain ⟨t, hrun, hend, hdigit, htag⟩ := ih (h.afterScan hp) (by rw [activeCount_afterScan]; omega)
    rw [h.afterScan_disp hp] at hdigit htag
    exact ⟨t, (runInstrs_cons (exec_scan s)).trans hrun, hend, hdigit, htag⟩

/-- With no active place every SCAN is dark, and the count stays 0. -/
theorem observations_scans_dark (h : activeCount s.cfg s.disp = 0) (n : Nat) :
    (observations (scans n) s).map (fun o => (o.dselOut, o.segOut)) = List.replicate n (0, 0xFF) := by
  induction n generalizing s with
  | zero => rfl
  | succ n ih =>
    have hdark : s.afterScan.disp = scanDark s.disp := scanStep_of_inactive h
    have hrest := ih ((activeCount_afterScan s).trans h)
    rw [observations_scans_succ, List.map_cons, hrest, List.replicate_succ, State.pins, hdark]
    rfl

end Pass

/-- Settles O50: a pass starts at place 0 with all active places left, and with none active every SCAN is dark. -/
theorem scanPassStrobesEachLineOnce : Obligations.ScanPassStrobesEachLineOnce := by
  refine fun s => ⟨fun hc h0 => ?_, observations_scans_dark⟩
  have hstart : AtPlace s.cfg s.disp 0 := .start (Nat.ne_of_gt hc) h0
  refine ⟨?_, runInstrs_scans hstart (Nat.zero_add _)⟩
  rw [List.range_eq_range']
  exact observations_scans hstart (Nat.zero_add _)

end Sys2Proof.Machine

/-! # Exceptions and the two nodes: lost events, the lossless and the lossy wire (60_exceptions.md R217, R228, R229) -/

namespace Sys2Proof.Machine

/-! ## Events whose enable is 0 (60_exceptions.md R217) -/

theorem exec_edge_of_disarmed {s : State} (h : s.cap.armed = false) : exec .edge s = .next (s.answer 0) := by
  rw [exec_captureOp (.inr (.inr rfl)), captureStep, edgeCapture_of_disarmed h]

theorem exec_rxev_of_deaf {b : Byte} {s : State} (h : s.rx.en = false) : exec (.rxev b) s = .next (s.answer 0) := by
  rw [exec_rxev, receiveByte_of_deaf h]

/-- Settles O46, event by event. -/
theorem disabledEventLeavesNoTrace : Obligations.DisabledEventLeavesNoTrace :=
  fun _ _ => ⟨exec_edge_of_disarmed, exec_txev_of_disarmed, exec_rxev_of_deaf⟩

/-! ## What an operation of the sensor node adds to the wire (60_exceptions.md R229; 10_state.md R30, R36) -/

section Wire
variable {sent : List Byte} {i : Instr} {s t : State}

/-- The wire grows at its end, by what the strobe says. -/
theorem wireAfter_eq_append (sent : List Byte) (t : State) :
    wireAfter sent t = sent ++ if t.out.txValid then [t.tx.data] else [] := by
  unfold wireAfter
  split
  · rfl
  · exact (List.append_nil sent).symm

theorem length_le_length_wireAfter (sent : List Byte) (t : State) : sent.length ≤ (wireAfter sent t).length := by
  rw [wireAfter_eq_append, List.length_append]
  exact Nat.le_add_right _ _

/-- A byte sent changes nothing about the bytes taken before. -/
theorem take_wireAfter {n : Nat} (h : n ≤ sent.length) (t : State) : (wireAfter sent t).take n = sent.take n := by
  rw [wireAfter_eq_append, List.take_append_of_le_length h]

/-- `wire_out` stays what the wire ends in: RESET empties it, and every other operation adds the same to both. -/
theorem exec_wireOut_isSuffix (hs : s.tx.wireOut <:+ sent) (h : exec i s = .next t) :
    t.tx.wireOut <:+ wireAfter sent t := by
  by_cases hi : i = .reset
  · subst hi
    rw [(exec_reset_wire h).1]
    exact List.nil_suffix
  · obtain ⟨before, rfl⟩ := hs
    rw [exec_wireOut hi h, wireAfter_eq_append, wireAfter_eq_append, List.append_assoc]
    exact List.suffix_append _ _

end Wire

theorem runInstrs_snoc {i : Instr} {l : List Instr} {s u t : State} (hl : runInstrs l s = .next u)
    (hi : exec i u = .next t) : runInstrs (l ++ [i]) s = .next t := by
  rw [runInstrs_append hl, runInstrs_singleton, hi]

/-! ## What every event keeps, on a lossless and on a lossy wire (60_exceptions.md R229) -/

/-- The bytes that have left the wire, oldest first. -/
def Link.takenBytes (l : Link) : List Byte := l.sent.take l.taken

/-- What holds of the two nodes and their wire after every run from reset, where `cd` configures the display node: no
byte is taken before it was sent, the wire ends in the sensor node's `wire_out`, and the display node is where a run from
reset leaves it whose receive events are the bytes delivered. -/
structure LinkInv (cd : Config) (l : Link) : Prop where
  taken_le : l.taken ≤ l.sent.length
  wire : l.sensor.tx.wireOut <:+ l.sent
  received : ∃ ops, runInstrs ops (State.initial cd) = .next l.display ∧ ops.filterMap receivedByte = l.delivered

/-- An event that takes `bytes` from the wire may give the display node `got`: never more bytes than it takes, only these
unless it corrupts one, and on a lossless wire all of them. -/
structure Passes (lossy : Bool) (e : LinkEvent) (bytes got : List Byte) : Prop where
  length_le : got.length ≤ bytes.length
  sublist : (∀ b, e ≠ .corrupt b) → got.Sublist bytes
  all : lossy = false → got = bytes

section LinkInv
variable {cd : Config} {lossy : Bool} {e : LinkEvent} {es : List LinkEvent} {l l' : Link} {b : Byte}

theorem LinkInv.initial (cs cd : Config) : LinkInv cd (Link.initial cs cd) where
  taken_le := Nat.le_refl 0
  wire := List.nil_suffix
  received := ⟨[], rfl, rfl⟩

theorem LinkInv.step (h : LinkInv cd l) (hstep : linkStep lossy e l = .next l') : LinkInv cd l' := by
  obtain ⟨hle, hwire, ops, hrun, hops⟩ := h
  rcases linkStep_cases hstep with rfl | ⟨x, i, t, -, -, hi, rfl⟩ | ⟨x, i, t, -, -, hnone, hi, rfl⟩
    | ⟨b, t, hlt, hi, rfl, -⟩ | ⟨-, -, hlt, rfl⟩
  · exact ⟨hle, hwire, ops, hrun, hops⟩
  · exact ⟨hle.trans (length_le_length_wireAfter _ _), exec_wireOut_isSuffix hwire hi, ops, hrun, hops⟩
  · exact ⟨hle, hwire, ops ++ [i], runInstrs_snoc hrun hi, by simp [hops, hnone]⟩
  · exact ⟨hlt, hwire, ops ++ [.rxev b], runInstrs_snoc hrun hi, by simp [hops, receivedByte]⟩
  · exact ⟨hlt, hwire, ops, hrun, hops⟩

/-- A run from reset keeps the invariant, and so a property that every event of the run keeps where the invariant holds. -/
theorem linkRun_keeps_of_linkInv {P : Link → Prop} {cs : Config} (h0 : P (Link.initial cs cd))
    (h : ∀ e ∈ es, ∀ l l', LinkInv cd l → P l → linkStep lossy e l = .next l' → P l')
    (hr : linkRun lossy es (Link.initial cs cd) = .next l) : LinkInv cd l ∧ P l :=
  linkRun_keeps (P := fun l => LinkInv cd l ∧ P l)
    (fun e he l l' hl hstep => ⟨hl.1.step hstep, h e he l l' hl.1 hl.2 hstep⟩) ⟨.initial cs cd, h0⟩ hr

theorem Passes.refl (lossy : Bool) (e : LinkEvent) (bytes : List Byte) : Passes lossy e bytes bytes :=
  ⟨le_rfl, fun _ => .refl _, fun _ => rfl⟩

theorem Passes.corrupt (b b' : Byte) : Passes true (.corrupt b') [b] [b'] :=
  ⟨le_rfl, fun hno => absurd rfl (hno b'), nofun⟩

theorem Passes.drop (b : Byte) : Passes true .drop [b] [] := ⟨Nat.zero_le _, fun _ => List.nil_sublist _, nofun⟩

theorem take_taken_succ (h : l.sent[l.taken]? = some b) : l.sent.take (l.taken + 1) = l.takenBytes ++ [b] := by
  rw [List.take_add_one, h]
  rfl

/-- What an event takes from the wire and what the display node gets of it. -/
theorem linkStep_passes (hle : l.taken ≤ l.sent.length) (hstep : linkStep lossy e l = .next l') :
    ∃ bytes got, l'.takenBytes = l.takenBytes ++ bytes ∧ l'.delivered = l.delivered ++ got
      ∧ Passes lossy e bytes got := by
  have holdest : l.taken < l.sent.length → ∃ b, l.sent[l.taken]? = some b :=
    fun hlt => ⟨_, List.getElem?_eq_getElem hlt⟩
  rcases linkStep_cases hstep with rfl | ⟨x, i, t, -, -, -, rfl⟩ | ⟨x, i, t, -, -, -, -, rfl⟩
    | ⟨b, t, hlt, -, rfl, ⟨-, hb⟩ | ⟨rfl, rfl⟩⟩ | ⟨rfl, rfl, hlt, rfl⟩
  · exact ⟨[], [], (List.append_nil _).symm, (List.append_nil _).symm, .refl _ _ _⟩
  · exact ⟨[], [], (take_wireAfter hle t).trans (List.append_nil _).symm, (List.append_nil _).symm, .refl _ _ _⟩
  · exact ⟨[], [], (List.append_nil _).symm, (List.append_nil _).symm, .refl _ _ _⟩
  · exact ⟨[b], [b], take_taken_succ hb, rfl, .refl _ _ _⟩
  · obtain ⟨b', hb'⟩ := holdest hlt
    exact ⟨[b'], [b], take_taken_succ hb', rfl, .corrupt b' b⟩
  · obtain ⟨b', hb'⟩ := holdest hlt
    exact ⟨[b'], [], take_taken_succ hb', (List.append_nil _).symm, .drop b'⟩

theorem linkStep_delivered_eq (hle : l.taken ≤ l.sent.length) (h : l.delivered = l.takenBytes)
    (hstep : linkStep false e l = .next l') : l'.delivered = l'.takenBytes := by
  obtain ⟨bytes, got, htaken, hdelivered, hpass⟩ := linkStep_passes hle hstep
  rw [htaken, hdelivered, h, hpass.all rfl]

theorem linkStep_delivered_length_le (hle : l.taken ≤ l.sent.length) (h : l.delivered.length ≤ l.takenBytes.length)
    (hstep : linkStep lossy e l = .next l') : l'.delivered.length ≤ l'.takenBytes.length := by
  obtain ⟨bytes, got, htaken, hdelivered, hpass⟩ := linkStep_passes hle hstep
  rw [htaken, hdelivered, List.length_append, List.length_append]
  exact Nat.add_le_add h hpass.length_le

theorem linkStep_delivered_sublist (hle : l.taken ≤ l.sent.length) (he : ∀ b, e ≠ .corrupt b)
    (h : l.delivered.Sublist l.takenBytes) (hstep : linkStep lossy e l = .next l') :
    l'.delivered.Sublist l'.takenBytes := by
  obtain ⟨bytes, got, htaken, hdelivered, hpass⟩ := linkStep_passes hle hstep
  rw [htaken, hdelivered]
  exact h.append (hpass.sublist he)

/-- Without a RESET of the sensor node the wire has exactly what `wire_out` has. -/
theorem linkStep_sent_eq (he : ∀ x, e = .sensor x → inputInstr x ≠ .ok .reset) (h : l.sent = l.sensor.tx.wireOut)
    (hstep : linkStep lossy e l = .next l') : l'.sent = l'.sensor.tx.wireOut := by
  rcases linkStep_cases hstep with rfl | ⟨x, i, t, hx, hxi, hi, rfl⟩ | ⟨x, i, t, -, -, -, -, rfl⟩
    | ⟨b, t, -, -, rfl, -⟩ | ⟨-, -, -, rfl⟩
  · exact h
  · have hreset : i ≠ .reset := by
      rintro rfl
      exact he x hx hxi
    exact (congrArg (wireAfter · t) h).trans (exec_wireOut hreset hi).symm
  · exact h
  · exact h
  · exact h

end LinkInv

/-! ## Deliveries and receive events (60_exceptions.md R229) -/

section Deliveries
variable {lossy : Bool} {l : Link} {x : Input} {b : Byte}

theorem linkStep_display_receive (hx : inputInstr x = .ok (.rxev b)) : linkStep lossy (.display x) l = .next l := by
  have hreceive : isReceive x = true := by simp [isReceive, hx, receivedByte]
  exact if_pos hreceive

theorem linkStep_deliver_of_empty (h : l.sent.length ≤ l.taken) : linkStep lossy .deliver l = .next l := by
  simp only [linkStep, List.getElem?_eq_none h]

theorem linkRun_deliver_of_empty (h : l.sent.length ≤ l.taken) (n : Nat) :
    linkRun lossy (List.replicate n .deliver) l = .next l := by
  induction n with
  | zero => rfl
  | succ n ih => rw [List.replicate_succ, linkRun_cons (linkStep_deliver_of_empty h), ih]

end Deliveries

/-- Settles O53: as many deliveries as bytes are `linkRun_deliver`, and the ones left over find the wire empty. -/
theorem enoughDeliveriesEmptyTheWire : Obligations.EnoughDeliveriesEmptyTheWire := by
  intro l hl hle
  obtain ⟨o, hrun⟩ := runInstrs_rxBytes (l.sent.drop l.taken) l.display
  refine ⟨_, hrun, fun more => ?_⟩
  have hdeliver := linkRun_deliver (lossy := false) hl rfl hrun
  rw [List.length_drop, Nat.add_sub_cancel' hle] at hdeliver
  rw [List.replicate_add, linkRun_append hdeliver, linkRun_deliver_of_empty (Nat.le_refl _)]

/-- Settles O51: the invariant of the two nodes, with the bytes delivered equal to the bytes taken (`linkStep_passes`) and,
while the sensor node is not reset, the wire equal to `wire_out`. -/
theorem wireDeliversInOrder : Obligations.WireDeliversInOrder := by
  refine ⟨fun cs cd es l hrun => ?_, fun l b hl hb => ?_, fun l x b hx => linkStep_display_receive hx⟩
  · obtain ⟨hinv, hdelivered⟩ := linkRun_keeps_of_linkInv (P := fun l => l.delivered = l.takenBytes) rfl
      (fun _ _ _ _ hl => linkStep_delivered_eq hl.taken_le) hrun
    obtain ⟨before, hsent⟩ := hinv.wire
    refine ⟨hinv.taken_le, hdelivered, ⟨before, hsent.symm⟩, fun hreset => ?_, hinv.received⟩
    exact linkRun_keeps (P := fun l => l.sent = l.sensor.tx.wireOut)
      (fun e he _ _ => linkStep_sent_eq fun x hx => hreset x (hx ▸ he)) rfl hrun
  · obtain ⟨t, ht⟩ := exec_isNext (.rxev b) l.display
    exact ⟨t, ht, linkStep_deliver hl hb ht⟩

/-- Settles O54: the invariant of the two nodes, with at most as many bytes delivered as taken and, while none is
corrupted, a sublist of these (`linkStep_passes`). -/
theorem lossyWireAddsNoByte : Obligations.LossyWireAddsNoByte := by
  intro cs cd es l hrun
  obtain ⟨hinv, hlen⟩ := linkRun_keeps_of_linkInv (P := fun l => l.delivered.length ≤ l.takenBytes.length)
    (Nat.le_refl 0) (fun _ _ _ _ hl => linkStep_delivered_length_le hl.taken_le) hrun
  obtain ⟨before, hsent⟩ := hinv.wire
  refine ⟨hinv.taken_le, hlen.trans (List.length_take_le _ _), ⟨before, hsent.symm⟩, hinv.received, fun hno => ?_⟩
  exact (linkRun_keeps_of_linkInv (P := fun l => l.delivered.Sublist l.takenBytes) (.refl [])
    (fun _ he _ _ hl => linkStep_delivered_sublist hl.taken_le fun b hb => hno b (hb ▸ he)) hrun).2

end Sys2Proof.Machine
